-- ==== Sys2Proof/Word.lean ====
section
/-! DEFINITION. The bit strings the block handles (00_scope.md R8): the byte the buffer holds, and the fixed-width
codes that appear on its interface. Offsets and counts are natural numbers (00_scope.md R7, R97). -/

namespace Sys2Proof

/-- One location of the input buffer, and one byte of an instruction (R8, R36). -/
abbrev Byte := BitVec 8

/-- The two bytes of an instruction seen as one word `W16 = {b0, b1}`, b0 in bits 15:8 (R53, decision D16). -/
abbrev W16 := BitVec 16

/-- The interface code of a register identity, `{W, alt, group}` (R21, decision D4). -/
abbrev RegCode := BitVec 4

/-- A record on the interface, `{MOD, D, W, DST, SRC}` (R20, decision D3). -/
abbrev RecWord := BitVec 12

end Sys2Proof
end

