-- ==== Sys2Proof/Config.lean ====
section
/-! DEFINITION. The implementation parameters of 00_scope.md R7: the fixed ones as constants, the two marked OPEN
(MAX_LEN and ADDR_W) as a value that claims take as an argument. The block has no free value. -/

namespace Sys2Proof.Config

/-- INSN_LEN: the length in bytes of every decoded instruction (R7, R54). -/
def insnLen : Nat := 2

/-- N_CLASSES: the number of instruction classes (R7). -/
def nClasses : Nat := 1

/-- N_REGS: the number of register identities (R7, R21). -/
def nRegs : Nat := 16

/-- OPERAND_WIDTHS: the operand size in bits that the width flag chooses (R7, R70). -/
def operandWidth (w : Bool) : Nat := if w then 16 else 8

/-- One choice of the OPEN parameters MAX_LEN and ADDR_W of R7, with the relation R7 requires of them.
DESIGN CHOICE (log entry 1), unsafe: the machine itself is unbounded, and a claim about an instance takes a `Params`. -/
structure Params where
  /-- MAX_LEN: the largest buffer the block accepts. -/
  maxLen : Nat
  /-- ADDR_W: the width in bits of CURSOR, SLEN and NREC. -/
  addrW : Nat
  /-- `2^ADDR_W - 1 >= MAX_LEN`. -/
  fits : maxLen ≤ 2 ^ addrW - 1

/-- MAX_RECORDS: the capacity of the output record list, `floor(MAX_LEN / 2)` (R7). -/
def Params.maxRecords (P : Params) : Nat := P.maxLen / 2

end Sys2Proof.Config
end

