-- ==== Sys2Proof/Machine/Flags.lean ====
section
/-! DEFINITION. The block's two flags, the direction D and the width W (10_state.md R25). They are transient: they are
computed from the leading byte at every step and stored nowhere but in a record's sideband. The block has no condition
codes, status flags or predicates (R25). -/

namespace Sys2Proof.Machine

/-- D = b0[1], mask 0x02 (R69). Log entry 12: the bit's place is the spec's inference from the source's one example. -/
def directionFlag (b0 : Byte) : Bool := b0.getLsbD 1

/-- W = b0[0], mask 0x01 (R69); W = 1 selects the 16-bit registers (R70). Log entry 12. -/
def widthFlag (b0 : Byte) : Bool := b0.getLsbD 0

end Sys2Proof.Machine
end

