-- ==== Sys2Proof/Syntax.lean ====
section
/-! DEFINITION. What the block decodes to: the sixteen register identities (10_state.md R21), the one instruction
class (30_encoding.md R68), the three typed failures (60_exceptions.md R100), and the instructions, one constructor
for each row of opcode_table.json (40_register_move.md R80 to R83). -/

namespace Sys2Proof

/-- RegisterRef: the sixteen register identities of R21, each distinct from every other (R22). They are names the
decoder gives out, not storage (R24, R35). -/
inductive RegisterRef where
  | al | cl | dl | bl
  | ah | ch | dh | bh
  | ax | cx | dx | bx
  | sp | bp | si | di
  deriving DecidableEq, Repr

/-- InstructionClass: its one member (R68). -/
inductive InstructionClass where
  | registerMove
  deriving DecidableEq, Repr

/-- The three typed failures of a decode step (R100). -/
inductive Failure where
  /-- A byte beyond the end of the buffer is needed (R101). -/
  | truncated
  /-- The leading byte matches no class signature (R102). -/
  | unknownOpcode
  /-- A group selector names no known group: defensive only, no input raises it (R65, R103). -/
  | unknownRegisterGroup
  deriving DecidableEq, Repr

/-- An instruction: its opcode-table row fixes the flags D and W; its operands are the sideband MOD field, the
register the REG field names and the register the RM field names, already resolved by the register table
(R53, R64). Which of the two is the destination is the meaning's business (R71, R88). Log entry 7. -/
inductive Instr where
  /-- MOV.B.D0, opcode byte 0x88 (R80). -/
  | movBD0 (mod : BitVec 2) (reg rm : RegisterRef)
  /-- MOV.W.D0, opcode byte 0x89 (R81). -/
  | movWD0 (mod : BitVec 2) (reg rm : RegisterRef)
  /-- MOV.B.D1, opcode byte 0x8A (R82). -/
  | movBD1 (mod : BitVec 2) (reg rm : RegisterRef)
  /-- MOV.W.D1, opcode byte 0x8B (R83). -/
  | movWD1 (mod : BitVec 2) (reg rm : RegisterRef)
  deriving DecidableEq, Repr

end Sys2Proof
end

