-- ==== Sys2Proof/Machine/Operands.lean ====
section
/-! DEFINITION. The register identities' codes, the register table RTAB (30_encoding.md R57 to R59) and the register
field extractor RFX (R60 to R65), with the rule that orders the two registers into destination and source (R71). -/

namespace Sys2Proof.Machine

/-- The 4-bit interface code `{W, alt, group}` of a register identity (R21). -/
def regCode : RegisterRef → RegCode
  | .al => 0  | .cl => 1  | .dl => 2  | .bl => 3
  | .ah => 4  | .ch => 5  | .dh => 6  | .bh => 7
  | .ax => 8  | .cx => 9  | .dx => 10 | .bx => 11
  | .sp => 12 | .bp => 13 | .si => 14 | .di => 15

/-- Whether the identity is one of the eight 16-bit registers (R21, column W). -/
def isWordReg (r : RegisterRef) : Bool := (regCode r).getLsbD 3

/-- The register's width in bits (R21, R70). -/
def regWidth (r : RegisterRef) : Nat := Config.operandWidth (isWordReg r)

/-- RTAB(group, alt, w): the register table. Total, with no failure (R57, R58). -/
def rtab (group : BitVec 2) (alt w : Bool) : RegisterRef :=
  match w, alt with
  | false, false => match group with | 0 => .al | 1 => .cl | 2 => .dl | _ => .bl
  | false, true  => match group with | 0 => .ah | 1 => .ch | 2 => .dh | _ => .bh
  | true,  false => match group with | 0 => .ax | 1 => .cx | 2 => .dx | _ => .bx
  | true,  true  => match group with | 0 => .sp | 1 => .bp | 2 => .si | _ => .di

/-- MOD = b1[7:6], the mode prefix that no decode rule reads (R62). -/
def modField (b1 : Byte) : BitVec 2 := b1.extractLsb' 6 2

/-- REG = b1[5:3] (R60). -/
def regField (b1 : Byte) : BitVec 3 := b1.extractLsb' 3 3

/-- RM = b1[2:0] (R61). -/
def rmField (b1 : Byte) : BitVec 3 := b1.extractLsb' 0 3

/-- group(f) = f[1:0] (R63). Log entry 12. -/
def groupOf (f : BitVec 3) : BitVec 2 := f.extractLsb' 0 2

/-- alt(f) = f[2] (R63). Log entry 12. -/
def altOf (f : BitVec 3) : Bool := f.getLsbD 2

/-- The known group selectors, 0 to 3: the groups A, C, D and B (R21, R65). -/
def knownGroups : List (BitVec 2) := [0, 1, 2, 3]

/-- One field's register, with the defensive check of R65: a group selector that names no known group raises
UnknownRegisterGroup. No input fails it (R103); log entry 8. -/
def fieldRegister (f : BitVec 3) (w : Bool) : Except Failure RegisterRef :=
  if knownGroups.contains (groupOf f) then .ok (rtab (groupOf f) (altOf f) w) else .error .unknownRegisterGroup

/-- operand_decode(b1, w): the pair (first, second), first the REG field's register and second the RM field's, both at
the one shared width (R64, R65). -/
def operandDecode (b1 : Byte) (w : Bool) : Except Failure (RegisterRef × RegisterRef) :=
  match fieldRegister (regField b1) w with
  | .error e => .error e
  | .ok first =>
    match fieldRegister (rmField b1) w with
    | .error e => .error e
    | .ok second => .ok (first, second)

/-- The pair (destination, source) made of (first, second): as it stands when D = 1, swapped when D = 0 (R71, R88). -/
def assignRoles (d : Bool) (first second : RegisterRef) : RegisterRef × RegisterRef :=
  if d then (first, second) else (second, first)

end Sys2Proof.Machine
end

