-- ==== Sys2Proof/WellFormed.lean ====
section
/-! DEFINITION. When an instruction is well formed: each of its two registers has the width its form's W flag selects
(10_state.md R23; 40_register_move.md R80 to R83, "both in AL..BH" and "both in AX..DI"). MOD may be anything (R72). -/

namespace Sys2Proof

/-- The form's direction flag D (R72). -/
def Instr.direction : Instr → Bool
  | .movBD0 _ _ _ => false
  | .movWD0 _ _ _ => false
  | .movBD1 _ _ _ => true
  | .movWD1 _ _ _ => true

/-- The form's width flag W (R72). -/
def Instr.width : Instr → Bool
  | .movBD0 _ _ _ => false
  | .movWD0 _ _ _ => true
  | .movBD1 _ _ _ => false
  | .movWD1 _ _ _ => true

/-- Both registers have the width the flag selects (R23). -/
def regsHaveWidth (w : Bool) (reg rm : RegisterRef) : Bool :=
  Machine.isWordReg reg == w && Machine.isWordReg rm == w

/-- The check of one instruction. -/
def Instr.wellFormed (i : Instr) : Bool :=
  match i with
  | .movBD0 _ reg rm => regsHaveWidth i.width reg rm
  | .movWD0 _ reg rm => regsHaveWidth i.width reg rm
  | .movBD1 _ reg rm => regsHaveWidth i.width reg rm
  | .movWD1 _ reg rm => regsHaveWidth i.width reg rm

/-- The instruction is one that some bytes encode. -/
abbrev WellFormed (i : Instr) : Prop := i.wellFormed = true

end Sys2Proof
end

