-- ==== Sys2Proof/Decode.lean ====
section
/-! DEFINITION. The decoder, total on any bytes, rejecting by one of the three typed failures (30_encoding.md,
41_decode_engine.md R85), and after it the encoder, written from the format table of R53. -/

namespace Sys2Proof

/-- The signature table: one row, signature 0b100010 (0x88 with the low two bits zero), class RegisterMove (R67, R68).
Log entry 12: the number is the spec's inference from the source's one example. -/
def signatureTable : List (Byte × InstructionClass) := [(0x88, .registerMove)]

/-- classify(b0): mask off the low two bits and look the rest up; a miss is UnknownOpcode (R66, R68, R73). -/
def classify (b0 : Byte) : Except Failure InstructionClass :=
  match signatureTable.find? (fun row => b0 &&& 0xFC == row.1) with
  | some row => .ok row.2
  | none => .error .unknownOpcode

/-- MATCH: b0 has a known signature (R30, R66). -/
def matchesClass (b0 : Byte) : Bool :=
  match classify b0 with
  | .ok _ => true
  | .error _ => false

/-- The class fixes the length, and a step returns it (R54, R86). -/
def classLength : InstructionClass → Nat
  | .registerMove => Config.insnLen

/-- The row of the opcode map that the flags choose (R72). -/
def formOf (d w : Bool) (mod : BitVec 2) (reg rm : RegisterRef) : Instr :=
  match d, w with
  | false, false => .movBD0 mod reg rm
  | false, true  => .movWD0 mod reg rm
  | true,  false => .movBD1 mod reg rm
  | true,  true  => .movWD1 mod reg rm

/-- The instruction at the head of `bytes`, with the bytes after it. The checks come in the order of R85 and R105: no
first byte, unknown signature, no second byte, unknown register group. -/
def decode (bytes : List Byte) : Except Failure (Instr × List Byte) :=
  match bytes with
  | [] => .error .truncated
  | b0 :: rest =>
    match classify b0 with
    | .error e => .error e
    | .ok .registerMove =>
      match rest with
      | [] => .error .truncated
      | b1 :: rest' =>
        match Machine.operandDecode b1 (Machine.widthFlag b0) with
        | .error e => .error e
        | .ok (reg, rm) =>
          .ok (formOf (Machine.directionFlag b0) (Machine.widthFlag b0) (Machine.modField b1) reg rm, rest')

/-- The two bytes of a table word `W16 = {b0, b1}` in stream order, b0 first (R53, decision D16); the bits above
`nbits` are zero. Log entry 16. -/
def tableBytes (nbits w : Nat) : List Byte :=
  let w16 : W16 := BitVec.ofNat 16 (w % 2 ^ nbits)
  [w16.extractLsb' 8 8, w16.extractLsb' 0 8]

/-- What the decoder reads from a word numbered as opcode_table.json numbers it. -/
def decodeTableWord (nbits w : Nat) : Option Instr :=
  match decode (tableBytes nbits w) with
  | .ok (i, _) => some i
  | .error _ => none

/-- The opcode byte: OPC6 = 0b100010, then D, then W (R53). -/
def opcodeByte (d w : Bool) : Byte := 0b100010#6 ++ BitVec.ofBool d ++ BitVec.ofBool w

/-- The 3-bit field that names a register at its own width: alt, then group (R21, R63). -/
def regFieldOf (r : RegisterRef) : BitVec 3 := (Machine.regCode r).extractLsb' 0 3

/-- The operand byte: MOD, then REG, then RM (R53). -/
def operandByte (mod : BitVec 2) (reg rm : RegisterRef) : Byte := mod ++ regFieldOf reg ++ regFieldOf rm

/-- The bytes of a well-formed instruction, in stream order (R53). The block has no encoder (R6); this one serves the
claims about decoding. Log entry 7. -/
def encode (i : Instr) : List Byte :=
  match i with
  | .movBD0 mod reg rm => [opcodeByte i.direction i.width, operandByte mod reg rm]
  | .movWD0 mod reg rm => [opcodeByte i.direction i.width, operandByte mod reg rm]
  | .movBD1 mod reg rm => [opcodeByte i.direction i.width, operandByte mod reg rm]
  | .movWD1 mod reg rm => [opcodeByte i.direction i.width, operandByte mod reg rm]

end Sys2Proof
end

