-- ==== Sys2Proof/Machine/State.lean ====
section
/-! DEFINITION. The state of the machine: ENG's registers (10_state.md R16 to R20), the host's side of the interface
(the input pins LEN_IN and OUT_IDX of R28 and the buffer memory of R36), and the host's pending actions. Plain data. -/

namespace Sys2Proof.Machine

/-- STATUS, the state of the pass (R18). -/
inductive Status where
  /-- No pass since reset. -/
  | idle
  /-- A pass is running; ENG takes steps. -/
  | busy
  /-- The pass ended with every byte decoded. -/
  | done
  /-- The pass ended with a failure. -/
  | error
  deriving DecidableEq, Repr

/-- ERR, the failure that ended the last pass (R19). -/
inductive Err where
  | none
  | truncated
  | unknownOpcode
  /-- Defensive only: never held (R103). -/
  | unknownRegisterGroup
  deriving DecidableEq, Repr

/-- One decoded instruction with its sideband fields MOD, D and W (R20, R87). -/
structure Record where
  destination : RegisterRef
  source : RegisterRef
  mod : BitVec 2
  d : Bool
  w : Bool
  deriving DecidableEq, Repr

/-- The input buffer BUF (R36): the bytes the host has placed, by offset. Canonical form: offsets strictly rising. A
byte the host has not placed has no entry and no value (log entry 3, DESIGN CHOICE, safe). -/
abbrev Memory := List Host.Cell

/-- What the host can do to the block (R28, R112, R113, R123). Log entry 2. -/
inductive HostAction where
  /-- Drive the pin LEN_IN (R28, R123 step 2). -/
  | driveLenIn (n : Nat)
  /-- Drive the pin OUT_IDX (R28). -/
  | driveOutIdx (i : Nat)
  /-- Place one byte of the buffer (R123 step 1). -/
  | placeByte (a : Nat) (b : Byte)
  /-- Raise START (R92, R124). -/
  | start
  /-- Raise RESET (R120). -/
  | reset
  deriving DecidableEq, Repr

/-- The machine's state. -/
structure State where
  /-- STATUS (R18). -/
  status : Status
  /-- ERR (R19). -/
  err : Err
  /-- CURSOR, the block's program counter (R16). -/
  cursor : Nat
  /-- SLEN, the length of the pass's buffer (R17). -/
  slen : Nat
  /-- NREC, the record count (R20). -/
  nrec : Nat
  /-- OUT, the records in stream order (R20). -/
  out : List Record
  /-- The host's pin LEN_IN (R28). -/
  lenIn : Nat
  /-- The host's pin OUT_IDX (R28). -/
  outIdx : Nat
  /-- BUF, the host's buffer memory (R36). -/
  buf : Memory
  /-- The model's own field: what the host does at the coming steps, the head first. `none` leaves the step to ENG, and
  so does the end of the list. Log entry 2. -/
  host : List (Option HostAction)
  deriving DecidableEq, Repr

/-- Why the machine stops with a fault. -/
inductive Fault where
  /-- Raised by the fetch: the host raised START without having placed a byte below SLEN that the step reads, against
  its duty of R123 step 1. Safe: the block would go on with whatever BUF_DATA carries, and no claim says what. Log entry 3. -/
  | bufferByteNotPlaced
  deriving DecidableEq, Repr

/-- Why the machine has no meaning to give. -/
inductive Refusal where
  /-- Raised by exec's arm of an instruction that has no meaning yet; no arm raises it now. Safe. -/
  | notModelled (mnemonic : String)
  /-- Raised by the host's action placeByte at an offset below SLEN while STATUS is BUSY, against its duty of R45 and R125;
  93_implementation_defined.md U6 says `refuse`. Safe: the block would go on with unspecified results. Log entry 4. -/
  | bufferWrittenDuringPass
  deriving DecidableEq, Repr

/-- The machine right after reset: ENG's registers as R27 says. The pins, the buffer and the host's actions are the
host's: R27 gives them no value (log entry 5, DESIGN CHOICE, unsafe). -/
def State.reset : State where
  status := .idle
  err := .none
  cursor := 0
  slen := 0
  nrec := 0
  out := []
  lenIn := 0
  outIdx := 0
  buf := []
  host := []

end Sys2Proof.Machine
end

