-- ==== Sys2Proof/Machine/Ops.lean ====
section
/-! DEFINITION. The shared operations: reading and placing bytes of the buffer (20_memory.md R36, R41, R42), fetching the
bytes of the next instruction (41_decode_engine.md R85), and the engine's register transfers (R92 to R95, R120). -/

namespace Sys2Proof.Machine

/-- The byte the host has placed at offset `a`, if it has (R36). -/
def Memory.read (m : Memory) (a : Nat) : Option Byte :=
  match m with
  | [] => none
  | (k, v) :: rest => if a = k then some v else Memory.read rest a

/-- Place byte `b` at offset `a`, keeping the canonical form (R123 step 1). -/
def Memory.write (m : Memory) (a : Nat) (b : Byte) : Memory :=
  match m with
  | [] => [(a, b)]
  | (k, v) :: rest =>
    if a < k then (a, b) :: (k, v) :: rest
    else if a = k then (a, b) :: rest
    else (k, v) :: Memory.write rest a b

/-- The canonical form: offsets strictly rising. -/
abbrev Memory.wf (m : Memory) : Prop := m.Pairwise (fun x y => x.1 < y.1)

/-- MemRead at each of the offsets, in order; nothing when one of them holds no byte. -/
def Memory.readAll (m : Memory) (as : List Nat) : Option (List Byte) :=
  match as with
  | [] => some []
  | a :: rest =>
    match m.read a with
    | none => none
    | some b => (m.readAll rest).map (b :: ·)

/-- The code of a failure in ERR (R95, R100). -/
def errOf : Failure → Err
  | .truncated => .truncated
  | .unknownOpcode => .unknownOpcode
  | .unknownRegisterGroup => .unknownRegisterGroup

/-- The offsets a decode step at offset `c` reads: b0's when `c` is inside the buffer, and b1's when b0's class is matched
and two bytes remain (R41, R42, R85). -/
def fetchOffsets (m : Memory) (slen c : Nat) : List Nat :=
  if slen ≤ c then []
  else
    match m.read c with
    | none => [c]
    | some b0 => if matchesClass b0 = true ∧ c + 2 ≤ slen then [c, c + 1] else [c]

/-- The offsets BUF_ADDR carries in ENG's decode step (R28, R36). -/
def fetchAddrs (s : State) : List Nat := fetchOffsets s.buf s.slen s.cursor

/-- The bytes a decode step reads, in stream order (R39, R85); nothing when the host has not placed one of them. -/
def fetch (s : State) : Option (List Byte) := s.buf.readAll (fetchAddrs s)

/-- The decode step's transfer: append the record, count it, advance the cursor by the consumed length (R93). -/
def retire (r : Record) (n : Nat) (s : State) : State :=
  { s with out := s.out ++ [r], nrec := s.nrec + 1, cursor := s.cursor + n }

/-- The completion step's transfer (R94). -/
def completePass (s : State) : State := { s with status := .done }

/-- Taking a failure, the one exception entry of the block: the pass ends in ERROR, ERR names the failure, the records
are discarded and CURSOR keeps the failing instruction's offset; no other state is saved and control goes to no handler
(R95, R104, R107). There is no return from it: only START and RESET leave ERROR (R108). -/
def failPass (e : Failure) (s : State) : State :=
  { s with status := .error, err := errOf e, out := [], nrec := 0 }

/-- The transfer of a START that begins a pass (R92). -/
def beginPass (s : State) : State :=
  { s with slen := s.lenIn, cursor := 0, out := [], nrec := 0, err := .none, status := .busy }

/-- The host's START: it begins a pass unless one is running (R92, R124). -/
def startPass (s : State) : State :=
  match s.status with
  | .busy => s
  | .idle => beginPass s
  | .done => beginPass s
  | .error => beginPass s

/-- The host's RESET: every register of ENG to its value of R27, whatever the block is doing; the buffer and the pins are
the host's and stay (R120, R121). -/
def resetBlock (s : State) : State :=
  { s with status := .idle, err := .none, cursor := 0, slen := 0, nrec := 0, out := [] }

/-- The host drives its pin LEN_IN (R28, R127). -/
def setLenIn (n : Nat) (s : State) : State := { s with lenIn := n }

/-- The host drives its pin OUT_IDX (R28). -/
def setOutIdx (i : Nat) (s : State) : State := { s with outIdx := i }

/-- One byte of the buffer lands (R123 step 1). -/
def landByte (a : Nat) (b : Byte) (s : State) : State := { s with buf := s.buf.write a b }

/-- The host's next action is taken off its list. -/
def dropHost (s : State) : State := { s with host := s.host.tail }

end Sys2Proof.Machine
end

