-- ==== Sys2Proof/Machine/RegisterMove.lean ====
section
/-! DEFINITION. The register-move family: what each of the four forms produces (40_register_move.md R80 to R83). The
block only decodes, so an instruction's effect is its record and the advance of CURSOR and NREC (R84, R86, R93). It is
entered, as R80's pseudocode is, once b0 has matched and both bytes are in the buffer. -/

namespace Sys2Proof.Machine

/-- The record of a register move: the pair of registers put in their roles by D, with the sideband (R80 to R83, R87, R88). -/
def moveRecord (d w : Bool) (mod : BitVec 2) (first second : RegisterRef) : Record :=
  let roles := assignRoles d first second
  { destination := roles.1, source := roles.2, mod := mod, d := d, w := w }

/-- The common effect of the family: the record appended, and the class's length consumed (R86, R93). -/
def registerMove (d w : Bool) (mod : BitVec 2) (reg rm : RegisterRef) (s : State) :
    Host.Outcome State Fault Refusal :=
  .next (retire (moveRecord d w mod reg rm) (classLength .registerMove) s)

/-- MOV.B.D0 (R80): byte move, the RM field names the destination. -/
def execMovBD0 (mod : BitVec 2) (reg rm : RegisterRef) (s : State) : Host.Outcome State Fault Refusal :=
  registerMove false false mod reg rm s

/-- MOV.W.D0 (R81): word move, the RM field names the destination. -/
def execMovWD0 (mod : BitVec 2) (reg rm : RegisterRef) (s : State) : Host.Outcome State Fault Refusal :=
  registerMove false true mod reg rm s

/-- MOV.B.D1 (R82): byte move, the REG field names the destination. -/
def execMovBD1 (mod : BitVec 2) (reg rm : RegisterRef) (s : State) : Host.Outcome State Fault Refusal :=
  registerMove true false mod reg rm s

/-- MOV.W.D1 (R83): word move, the REG field names the destination. -/
def execMovWD1 (mod : BitVec 2) (reg rm : RegisterRef) (s : State) : Host.Outcome State Fault Refusal :=
  registerMove true true mod reg rm s

end Sys2Proof.Machine
end

