-- ==== Sys2Proof/Machine/Dispatch.lean ====
section
/-! DEFINITION. One arm for each constructor of Instr, each a direct call of the instruction's meaning. -/

namespace Sys2Proof.Machine

/-- What an instruction does. -/
def exec (i : Instr) (s : State) : Host.Outcome State Fault Refusal :=
  match i with
  | .movBD0 mod reg rm => Sys2Proof.Machine.execMovBD0 mod reg rm s
  | .movWD0 mod reg rm => Sys2Proof.Machine.execMovWD0 mod reg rm s
  | .movBD1 mod reg rm => Sys2Proof.Machine.execMovBD1 mod reg rm s
  | .movWD1 mod reg rm => Sys2Proof.Machine.execMovWD1 mod reg rm s

end Sys2Proof.Machine
end

