-- ==== Sys2Proof/Machine/Engine.lean ====
section
/-! DEFINITION. The two agents' turns (10_state.md R14): ENG's, one decode, completion or error step (41_decode_engine.md
R93 to R95), and the host's, one action (70_reset_and_hazards.md R120, R123, R124). -/

namespace Sys2Proof.Machine

/-- A decode step at a cursor that has not reached the end: fetch, decode, and run what was decoded or take the failure
(R93, R95). -/
def decodeStep (s : State) : Host.Outcome State Fault Refusal :=
  match fetch s with
  | none => .fault .bufferByteNotPlaced
  | some bytes =>
    match decode bytes with
    | .ok (i, _) => exec i s
    | .error e => .next (failPass e s)

/-- ENG's turn. While BUSY it decodes one instruction or ends the pass (R93 to R95); in IDLE, DONE and ERROR it takes no
step and every register keeps its value (R108, R118, R122). Log entry 10. -/
def engTurn (s : State) : Host.Outcome State Fault Refusal :=
  match s.status with
  | .busy => if s.cursor = s.slen then .next (completePass s) else decodeStep s
  | .idle => .next s
  | .done => .next s
  | .error => .next s

/-- The host places a byte. Below SLEN while a pass runs it breaks the duty of R45 and R125, and the model refuses
(93_implementation_defined.md U6); everywhere else the byte lands. Log entry 4. -/
def placeByte (a : Nat) (b : Byte) (s : State) : Host.Outcome State Fault Refusal :=
  if s.status = .busy ∧ a < s.slen then .refused .bufferWrittenDuringPass
  else .next (landByte a b s)

/-- The host's turn: one action (R28, R123). -/
def hostTurn (act : HostAction) (s : State) : Host.Outcome State Fault Refusal :=
  match act with
  | .driveLenIn n => .next (setLenIn n s)
  | .driveOutIdx i => .next (setOutIdx i s)
  | .placeByte a b => placeByte a b s
  | .start => .next (startPass s)
  | .reset => .next (resetBlock s)

/-- The host's action at the coming step, if it takes one. -/
def pendingAction (s : State) : Option HostAction := s.host.head?.join

/-- A word's two bytes placed at offset `a`, b0 first (R39, R53). -/
def placeWord (nbits w a : Nat) (m : Memory) : Memory :=
  let w16 : W16 := BitVec.ofNat 16 (w % 2 ^ nbits)
  (m.write a (w16.extractLsb' 8 8)).write (a + 1) (w16.extractLsb' 0 8)

/-- The host's list with a leading `none` where its next entry is an action, so that the coming step is ENG's. -/
def engFirst (host : List (Option HostAction)) : List (Option HostAction) :=
  match host with
  | some act :: rest => none :: some act :: rest
  | none :: rest => none :: rest
  | [] => []

/-- The word placed at the cursor of the running pass, whose buffer is made long enough to hold it; where no pass runs,
placed at offset 0 with LEN_IN = 2 and START raised (R123). Log entry 6. -/
def loadWord (nbits w : Nat) (s : State) : State :=
  match s.status with
  | .busy => { s with buf := placeWord nbits w s.cursor s.buf, slen := max s.slen (s.cursor + 2) }
  | .idle => beginPass { s with buf := placeWord nbits w 0 s.buf, lenIn := 2 }
  | .done => beginPass { s with buf := placeWord nbits w 0 s.buf, lenIn := 2 }
  | .error => beginPass { s with buf := placeWord nbits w 0 s.buf, lenIn := 2 }

end Sys2Proof.Machine
end

