-- ==== Sys2Proof/Machine/Step.lean ====
section
/-! DEFINITION. One step of the machine: the host's action where it takes one, else ENG's turn (41_decode_engine.md
section 3; 70_reset_and_hazards.md R129). Log entry 2. -/

namespace Sys2Proof.Machine

/-- One step: the head of the host's list says whose turn it is. -/
def step (s : State) : Host.Outcome State Fault Refusal :=
  match pendingAction s with
  | none => engTurn (dropHost s)
  | some act => hostTurn act (dropHost s)

/-- `s` with the instruction word where the coming step fetches it, and that step ENG's. Log entry 6. -/
def State.withFetchWord (s : State) (nbits w : Nat) : State :=
  { loadWord nbits w s with host := engFirst s.host }

end Sys2Proof.Machine
end

