-- ==== Sys2Proof/Machine/Pass.lean ====
section
/-! DEFINITION. The spec's two pure functions, written from its pseudocode: decode_one, one instruction at an offset
(41_decode_engine.md R85), and decode_all, a whole buffer (R90). The engine is claimed to carry them out; it does not
call them. Here the buffer is a function from offsets to bytes, read only below its length (R9, R41). -/

namespace Sys2Proof.Machine

/-- decode_one(c): the record and the consumed byte count, or the failure (R85 to R89). -/
def decodeOne (slen : Nat) (mem : Nat → Byte) (c : Nat) : Except Failure (Record × Nat) :=
  if slen ≤ c then .error .truncated
  else
    match classify (mem c) with
    | .error e => .error e
    | .ok cls =>
      if slen < c + classLength cls then .error .truncated
      else
        match operandDecode (mem (c + 1)) (widthFlag (mem c)) with
        | .error e => .error e
        | .ok (first, second) =>
          let roles := if directionFlag (mem c) then (first, second) else (second, first)
          .ok ({ destination := roles.1, source := roles.2, mod := modField (mem (c + 1)),
                 d := directionFlag (mem c), w := widthFlag (mem c) }, classLength cls)

/-- The loop of decode_all from offset `c` with the list `acc`; a failure comes with the offset of the instruction it is
the failure of (R90, R104). `fuel` counts iterations, of which a buffer needs at most one for each byte and one more. -/
def decodeFrom (len : Nat) (mem : Nat → Byte) (fuel c : Nat) (acc : List Record) :
    Except (Failure × Nat) (List Record) :=
  match fuel with
  | 0 => .ok acc
  | fuel + 1 =>
    if c = len then .ok acc
    else
      match decodeOne len mem c with
      | .error e => .error (e, c)
      | .ok (r, n) => decodeFrom len mem fuel (c + n) (acc ++ [r])

/-- decode_all(LEN) with the failing offset kept (R90, R96). -/
def decodePass (len : Nat) (mem : Nat → Byte) : Except (Failure × Nat) (List Record) :=
  decodeFrom len mem (len + 1) 0 []

/-- decode_all(LEN): the whole list, or the first failure and no list (R90, R91). -/
def decodeAll (len : Nat) (mem : Nat → Byte) : Except Failure (List Record) :=
  match decodePass len mem with
  | .ok records => .ok records
  | .error (e, _) => .error e

end Sys2Proof.Machine
end

