-- ==== Sys2Proof/Machine/Render.lean ====
section
/-! DEFINITION. The text form of a decoded instruction (30_encoding.md R76 to R79): the host's function on records. It
reads the two registers only; the sideband is not shown. -/

namespace Sys2Proof.Machine

/-- The canonical name (R21, R77). -/
def regName : RegisterRef → String
  | .al => "AL" | .cl => "CL" | .dl => "DL" | .bl => "BL"
  | .ah => "AH" | .ch => "CH" | .dh => "DH" | .bh => "BH"
  | .ax => "AX" | .cx => "CX" | .dx => "DX" | .bx => "BX"
  | .sp => "SP" | .bp => "BP" | .si => "SI" | .di => "DI"

/-- render: `MOV <dest>,<src>` (R76, R78). -/
def render (r : Record) : String := "MOV" ++ " " ++ regName r.destination ++ "," ++ regName r.source

/-- The lines of a list of records, each with its index, the index of OUT[i] being i (R79). The layout of the log line's
tag is the host's and is not given (U7). -/
def renderLines (records : List Record) : List (Nat × String) :=
  records.mapIdx (fun i r => (i, render r))

end Sys2Proof.Machine
end

