-- ==== Sys2Proof/Machine/Interface.lean ====
section
/-! DEFINITION. What the host and the sub-blocks see (10_state.md R20, R26, R28 to R32): the codes of the registers, the
record on OUT_REC, the read port, and the combinational outputs of CLS, RFX, RTAB and DEC. None of it is state. -/

namespace Sys2Proof.Machine

/-- The code of STATUS (R18). -/
def statusCode : Status → BitVec 2
  | .idle => 0
  | .busy => 1
  | .done => 2
  | .error => 3

/-- The code of ERR (R19). -/
def errCode : Err → BitVec 2
  | .none => 0
  | .truncated => 1
  | .unknownOpcode => 2
  | .unknownRegisterGroup => 3

/-- A record on the interface: MOD in 11:10, D in 9, W in 8, DST in 7:4, SRC in 3:0 (R20). -/
def packRecord (r : Record) : RecWord :=
  r.mod ++ BitVec.ofBool r.d ++ BitVec.ofBool r.w ++ regCode r.destination ++ regCode r.source

/-- The host's read port: registers 0 to 4 by number; no other number names a register (R26). Log entry 9. -/
def readPort (n : Nat) (s : State) : Option Nat :=
  match n with
  | 0 => some (statusCode s.status).toNat
  | 1 => some (errCode s.err).toNat
  | 2 => some s.cursor
  | 3 => some s.slen
  | 4 => some s.nrec
  | _ => none

/-- OUT_REC: OUT[OUT_IDX] when OUT_IDX < NREC, else 0 (R28). -/
def outRec (s : State) : RecWord :=
  if s.outIdx < s.nrec then
    match s.out[s.outIdx]? with
    | some r => packRecord r
    | none => 0
  else 0

/-- The result of the last pass: the whole list at DONE, the failure at ERROR, and none before a pass has ended. OUT during
BUSY is no result (R91, R126, U11). Log entry 14. -/
def passResult (s : State) : Option (Except Err (List Record)) :=
  match s.status with
  | .idle => none
  | .busy => none
  | .done => some (.ok s.out)
  | .error => some (.error s.err)

/-- The lines the host writes for the last pass: its records rendered when it is DONE, nothing otherwise (R123 step 5). -/
def renderedPass (s : State) : List (Nat × String) :=
  match passResult s with
  | some (.ok records) => renderLines records
  | some (.error _) => []
  | none => []

/-- The outputs of CLS, the classifier (R30). -/
structure ClsOut where
  isMatch : Bool
  d : Bool
  w : Bool
  deriving DecidableEq, Repr

/-- CLS: its two operations are independent (R30). -/
def cls (b0 : Byte) : ClsOut := { isMatch := matchesClass b0, d := directionFlag b0, w := widthFlag b0 }

/-- The outputs of RFX, the register field extractor (R31). -/
structure RfxOut where
  first : RegCode
  second : RegCode
  mod : BitVec 2
  gerr : Bool
  deriving DecidableEq, Repr

/-- RFX: FIRST, SECOND and MOD, and GERR where the group check of R65 fails (R31). -/
def rfx (b1 : Byte) (w : Bool) : RfxOut :=
  match operandDecode b1 w with
  | .ok (first, second) => { first := regCode first, second := regCode second, mod := modField b1, gerr := false }
  | .error _ => { first := 0, second := 0, mod := modField b1, gerr := true }

/-- RTAB's port: REF (R32). -/
def rtabRef (group : BitVec 2) (alt w : Bool) : RegCode := regCode (rtab group alt w)

/-- The outputs of DEC, the one-instruction datapath (R29). -/
structure DecOut where
  ok : Bool
  errc : BitVec 2
  nbytes : BitVec 2
  isClass : Bool
  d : Bool
  w : Bool
  mod : BitVec 2
  dst : RegCode
  src : RegCode
  deriving DecidableEq, Repr

/-- DEC: decode_one on the bytes at its inputs, AVAIL of them present. The outputs that no instruction drives are 0, and
CLASS, D and W follow B0 when AVAIL >= 1 (R29, decision D20). AVAIL = 3 does not occur; log entry 19. -/
def dec (b0 b1 : Byte) (avail : BitVec 2) : DecOut :=
  let here : Bool := decide (1 ≤ avail.toNat)
  match decodeOne avail.toNat (fun a => if a = 0 then b0 else b1) 0 with
  | .ok (r, n) =>
    { ok := true, errc := 0, nbytes := BitVec.ofNat 2 n, isClass := here && matchesClass b0,
      d := here && directionFlag b0, w := here && widthFlag b0, mod := r.mod,
      dst := regCode r.destination, src := regCode r.source }
  | .error e =>
    { ok := false, errc := errCode (errOf e), nbytes := 0, isClass := here && matchesClass b0,
      d := here && directionFlag b0, w := here && widthFlag b0, mod := 0, dst := 0, src := 0 }

/-- AVAIL = min(SLEN - CURSOR, 2) (R29). -/
def avail (s : State) : BitVec 2 := BitVec.ofNat 2 (min (s.slen - s.cursor) 2)

/-- DEC's outputs at the cursor, `mem` being the bytes BUF_DATA carries (R29). -/
def decAt (s : State) (mem : Nat → Byte) : DecOut := dec (mem s.cursor) (mem (s.cursor + 1)) (avail s)

end Sys2Proof.Machine
end

