-- ==== Sys2Proof/Safety.lean ====
section
/-! DEFINITION. The terms claims use: whose turn a step is, what the host owes the block before a pass (70_reset_and_hazards.md
R123), the invariants of 10_state.md R34 and of the record list, and the bounds of one instance (00_scope.md R7). -/

namespace Sys2Proof.Machine

/-- The coming step is ENG's: the host takes no action at it. -/
abbrev EngTurn (s : State) : Prop := pendingAction s = none

/-- The host has placed every byte of `[0, n)`, and they are `mem`'s (R123 step 1). -/
def Placed (s : State) (n : Nat) (mem : Nat → Byte) : Prop := ∀ a, a < n → s.buf.read a = some (mem a)

/-- `k` steps of the machine, stopping at the first fault or refusal. -/
def run (k : Nat) (s : State) : Host.Outcome State Fault Refusal :=
  match k with
  | 0 => .next s
  | k + 1 =>
    match step s with
    | .next t => run k t
    | .fault f => .fault f
    | .refused r => .refused r

/-- The record of the instruction whose two bytes the host has placed at offset `c`. -/
def recordAt (m : Memory) (c : Nat) : Option Record :=
  match m.read c, m.read (c + 1) with
  | some b0, some b1 =>
    match decodeOne 2 (fun a => if a = 0 then b0 else b1) 0 with
    | .ok (r, _) => some r
    | .error _ => none
  | _, _ => none

/-- What holds in every reachable state: the registers' invariants of R34, with R18, R19 and R103, the widths of R23, and
the canonical form of the buffer. -/
structure Inv (s : State) : Prop where
  cursor_le : s.cursor ≤ s.slen
  cursor_even : s.cursor % 2 = 0
  nrec_eq_length : s.nrec = s.out.length
  nrec_running : s.status = .busy ∨ s.status = .done → s.nrec = s.cursor / 2
  error_empty : s.status = .error → s.nrec = 0 ∧ s.out = []
  done_at_end : s.status = .done → s.cursor = s.slen
  idle_clear : s.status = .idle → s.cursor = 0 ∧ s.slen = 0 ∧ s.nrec = 0 ∧ s.out = []
  err_iff_error : s.err ≠ .none ↔ s.status = .error
  err_group_unused : s.err ≠ .unknownRegisterGroup
  record_widths : ∀ r ∈ s.out, isWordReg r.destination = r.w ∧ isWordReg r.source = r.w
  buf_wf : s.buf.wf

/-- OUT is the decoded prefix of the buffer while a pass runs: record i is the instruction at offset 2i (R50). -/
def OutIsPrefix (s : State) : Prop :=
  s.status = .busy → ∀ i, i < s.out.length → recordAt s.buf (2 * i) = s.out[i]?

/-- The host keeps to an instance's size: the pass's length, the pin LEN_IN and every length it is still to drive are at
most MAX_LEN (R7, R123 step 2). -/
structure WithinInstance (P : Config.Params) (s : State) : Prop where
  slen_le : s.slen ≤ P.maxLen
  lenIn_le : s.lenIn ≤ P.maxLen
  driven_le : ∀ n, some (.driveLenIn n) ∈ s.host → n ≤ P.maxLen

end Sys2Proof.Machine
end

