-- ==== Sys2Proof/Certificates/Slice0/Obligations.lean ====
section
/-! DEFINITION. The statements for the provers: what the spec's numbered rules say of the decoder, of one step, of the
invariants and of a whole pass. Each docstring names the rule; where a clause rests on a choice of the spec (a decision
D<n> of 92_eei_decisions.md), on an inference the spec marks as derived, or on a choice of the model, it says so. -/

open Sys2Proof Sys2Proof.Machine

/-! ### Encoding -/

/-- Decoding the bytes of a well-formed instruction, whatever follows them, gives the instruction and what follows
(95_test_vectors.md E4; the format of 30_encoding.md section 1). The encoder is the model's (log entry 7). -/
def Obligations.DecodeOfEncodeReturnsTheInstruction : Prop :=
  ∀ (i : Instr) (rest : List Byte), WellFormed i → decode (encode i ++ rest) = .ok (i, rest)

/-- The other direction: bytes that decode are the encoding of what they decode to, so no bit of them is dropped and each
two bytes have one meaning. The encoder is the model's (log entry 7). -/
def Obligations.DecodedBytesAreTheEncodingOfTheResult : Prop :=
  ∀ (bytes rest : List Byte) (i : Instr), decode bytes = .ok (i, rest) → WellFormed i ∧ bytes = encode i ++ rest

/-- The opcode map of 30_encoding.md section 5 over every leading byte and every operand byte: four bytes are the four
forms, with MOD, REG and RM from their bits and both registers at the form's width; every other byte is UnknownOpcode,
with an operand byte or without. Rests on the signature and bit places that the spec infers (log entry 12). -/
def Obligations.OpcodeMapDecidesEveryLeadingByte : Prop :=
  (∀ (b1 : Byte) (rest : List Byte), ∃ reg rm reg' rm' : RegisterRef,
    regCode reg = 0#1 ++ b1.extractLsb' 3 3 ∧ regCode rm = 0#1 ++ b1.extractLsb' 0 3 ∧
    regCode reg' = 1#1 ++ b1.extractLsb' 3 3 ∧ regCode rm' = 1#1 ++ b1.extractLsb' 0 3 ∧
    decode (0x88 :: b1 :: rest) = .ok (.movBD0 (b1.extractLsb' 6 2) reg rm, rest) ∧
    decode (0x89 :: b1 :: rest) = .ok (.movWD0 (b1.extractLsb' 6 2) reg' rm', rest) ∧
    decode (0x8A :: b1 :: rest) = .ok (.movBD1 (b1.extractLsb' 6 2) reg rm, rest) ∧
    decode (0x8B :: b1 :: rest) = .ok (.movWD1 (b1.extractLsb' 6 2) reg' rm', rest)) ∧
  (∀ (b0 : Byte) (rest : List Byte), b0 ≠ 0x88 → b0 ≠ 0x89 → b0 ≠ 0x8A → b0 ≠ 0x8B →
    decode (b0 :: rest) = .error .unknownOpcode)

/-- One word of each form, and one rejected word, written out from the format of 30_encoding.md section 1 and read as
95_test_vectors.md V-DEC reads them. -/
def Obligations.WrittenOutWordsDecode : Prop :=
  decodeTableWord 16 0b1000100011100101 = some (.movBD0 3 .ah .ch) ∧
  decodeTableWord 16 0b1000100111011001 = some (.movWD0 3 .bx .cx) ∧
  decodeTableWord 16 0b1000101011100101 = some (.movBD1 3 .ah .ch) ∧
  decodeTableWord 16 0b1000101100000110 = some (.movWD1 0 .ax .si) ∧
  decodeTableWord 16 0b1000110011011001 = none

/-- R57, R58 and R59: the register table gives the identity whose code is {w, alt, group}, in the names' order of R57; it
answers on all sixteen inputs; different inputs give different identities, every identity is given, and no two identities
have one code. -/
def Obligations.RegisterTableGivesEveryCodeOnce : Prop :=
  (∀ (g : BitVec 2) (a w : Bool), regCode (rtab g a w) = BitVec.ofBool w ++ BitVec.ofBool a ++ g) ∧
  ([0, 1, 2, 3].map (rtab · false false) = [.al, .cl, .dl, .bl] ∧
   [0, 1, 2, 3].map (rtab · true false) = [.ah, .ch, .dh, .bh] ∧
   [0, 1, 2, 3].map (rtab · false true) = [.ax, .cx, .dx, .bx] ∧
   [0, 1, 2, 3].map (rtab · true true) = [.sp, .bp, .si, .di]) ∧
  (∀ (g g' : BitVec 2) (a a' w w' : Bool), rtab g a w = rtab g' a' w' → g = g' ∧ a = a' ∧ w = w') ∧
  (∀ r : RegisterRef, ∃ (g : BitVec 2) (a w : Bool), rtab g a w = r) ∧
  (∀ r r' : RegisterRef, regCode r = regCode r' → r = r')

/-- R60 and R61: REG is (b1 >> 3) & 0b111 = b1[5:3] and RM is b1 & 0b111 = b1[2:0], of every operand byte. -/
def Obligations.RegAndRmAreTheFieldsOfTheOperandByte : Prop :=
  ∀ b1 : Byte,
    (regField b1).setWidth 8 = (b1 >>> 3) &&& 0b111 ∧ regField b1 = b1.extractLsb' 3 3 ∧
    (rmField b1).setWidth 8 = b1 &&& 0b111 ∧ rmField b1 = b1.extractLsb' 0 3

/-- operand_decode answers, for every operand byte and width, the register of REG and the register of RM, both at the one
width, through the register table on the field's low two bits and its top bit (30_encoding.md section 3). That the low two
bits are the group is the spec's inference (log entry 12); that REG is the first of the pair is its decision D21. -/
def Obligations.OperandDecodeResolvesBothFields : Prop :=
  ∀ (b1 : Byte) (w : Bool),
    operandDecode b1 w =
      .ok (rtab ((regField b1).extractLsb' 0 2) ((regField b1).getLsbD 2) w,
           rtab ((rmField b1).extractLsb' 0 2) ((rmField b1).getLsbD 2) w)

/-- No input raises UnknownRegisterGroup, and no step brings its code into ERR (60_exceptions.md section 1, an inference
the spec marks as derived; log entry 8). -/
def Obligations.UnknownRegisterGroupIsNeverRaised : Prop :=
  (∀ bytes : List Byte, decode bytes ≠ .error .unknownRegisterGroup) ∧
  (∀ (slen : Nat) (mem : Nat → Byte) (c : Nat), decodeOne slen mem c ≠ .error .unknownRegisterGroup) ∧
  State.reset.err ≠ .unknownRegisterGroup ∧
  (∀ s t : State, s.err ≠ .unknownRegisterGroup → step s = .next t → t.err ≠ .unknownRegisterGroup)

/-- R74: an operand byte decodes as the one with MOD = 0b11 and the same low six bits does: the same two registers, the
same length, no error; the record keeps its MOD. -/
def Obligations.ModIsKeptAndReadByNothingElse : Prop :=
  ∀ (slen c : Nat) (mem mem' : Nat → Byte) (r : Record) (n : Nat),
    mem' c = mem c → mem' (c + 1) = 0b11#2 ++ (mem (c + 1)).extractLsb' 0 6 →
    (decodeOne slen mem c = .ok (r, n) ↔
      r.mod = (mem (c + 1)).extractLsb' 6 2 ∧ decodeOne slen mem' c = .ok ({ r with mod := 0b11 }, n))

/-- R88: with D = 1 the pair (REG register, RM register) stands as (destination, source); with D = 0 it is swapped; both
keep the width W. -/
def Obligations.DirectionFlagOrdersTheTwoRegisters : Prop :=
  ∀ (slen c : Nat) (mem : Nat → Byte) (r : Record) (n : Nat) (first second : RegisterRef),
    decodeOne slen mem c = .ok (r, n) →
    operandDecode (mem (c + 1)) (widthFlag (mem c)) = .ok (first, second) →
    (directionFlag (mem c) = true → r.destination = first ∧ r.source = second) ∧
    (directionFlag (mem c) = false → r.destination = second ∧ r.source = first) ∧
    isWordReg r.destination = widthFlag (mem c) ∧ isWordReg r.source = widthFlag (mem c)

/-- R23: both registers of one decoded instruction have the same width, the one the shared flag W selects, 16 bits or 8; so
DST[3] = SRC[3] = W in its record word. -/
def Obligations.BothRegistersHaveTheSharedWidth : Prop :=
  ∀ (slen c : Nat) (mem : Nat → Byte) (r : Record) (n : Nat), decodeOne slen mem c = .ok (r, n) →
    regWidth r.destination = regWidth r.source ∧
    regWidth r.destination = (if widthFlag (mem c) then 16 else 8) ∧
    r.w = widthFlag (mem c) ∧
    ((packRecord r).extractLsb' 4 4).getLsbD 3 = r.w ∧ ((packRecord r).extractLsb' 0 4).getLsbD 3 = r.w

/-- One call of decode_one raises the first check that fails, in the order of 60_exceptions.md section 2: first byte
missing, class not matched, second byte missing; with all three passed it decodes. That the last check of that order, the
register group's, never fails is an inference the spec marks as derived (log entry 8, DEDUCED). The lone byte, another
inference marked as derived, is the case slen = c + 1. -/
def Obligations.DecodeOneRaisesTheFirstFailedCheck : Prop :=
  ∀ (slen : Nat) (mem : Nat → Byte) (c : Nat),
    (slen ≤ c → decodeOne slen mem c = .error .truncated) ∧
    (c < slen → matchesClass (mem c) = false → decodeOne slen mem c = .error .unknownOpcode) ∧
    (c < slen → matchesClass (mem c) = true → slen < c + 2 → decodeOne slen mem c = .error .truncated) ∧
    (c + 2 ≤ slen → matchesClass (mem c) = true → ∃ r, decodeOne slen mem c = .ok (r, 2))

/-! ### The four instructions -/

/-- R80: at a leading byte 0x88 the step appends one record, destination the 8-bit register of RM and source the 8-bit
register of REG by their codes, with MOD, D = 0 and W = 0, whatever the operand byte is, and consumes two bytes; it writes
no other register. When the operand byte is beyond SLEN it raises Truncated. (The sideband is the spec's decision D8.) -/
def Obligations.MovBD0DecodesToTheByteRecord : Prop :=
  ∀ s : State, s.status = .busy → EngTurn s → s.cursor ≠ s.slen → s.buf.read s.cursor = some 0x88 →
    (∀ b1 : Byte, s.cursor + 2 ≤ s.slen → s.buf.read (s.cursor + 1) = some b1 →
      ∃ r : Record,
        step s = .next { s with host := s.host.tail, out := s.out ++ [r], nrec := s.nrec + 1, cursor := s.cursor + 2 } ∧
        regCode r.destination = 0#1 ++ b1.extractLsb' 2 1 ++ b1.extractLsb' 0 2 ∧
        regCode r.source = 0#1 ++ b1.extractLsb' 5 1 ++ b1.extractLsb' 3 2 ∧
        r.mod = b1.extractLsb' 6 2 ∧ r.d = false ∧ r.w = false) ∧
    (s.slen < s.cursor + 2 → ∃ t, step s = .next t ∧ t.status = .error ∧ t.err = .truncated)

/-- R81: as R80 for the leading byte 0x89, the registers 16-bit, D = 0 and W = 1. -/
def Obligations.MovWD0DecodesToTheWordRecord : Prop :=
  ∀ s : State, s.status = .busy → EngTurn s → s.cursor ≠ s.slen → s.buf.read s.cursor = some 0x89 →
    (∀ b1 : Byte, s.cursor + 2 ≤ s.slen → s.buf.read (s.cursor + 1) = some b1 →
      ∃ r : Record,
        step s = .next { s with host := s.host.tail, out := s.out ++ [r], nrec := s.nrec + 1, cursor := s.cursor + 2 } ∧
        regCode r.destination = 1#1 ++ b1.extractLsb' 2 1 ++ b1.extractLsb' 0 2 ∧
        regCode r.source = 1#1 ++ b1.extractLsb' 5 1 ++ b1.extractLsb' 3 2 ∧
        r.mod = b1.extractLsb' 6 2 ∧ r.d = false ∧ r.w = true) ∧
    (s.slen < s.cursor + 2 → ∃ t, step s = .next t ∧ t.status = .error ∧ t.err = .truncated)

/-- R82: at a leading byte 0x8A destination is the 8-bit register of REG and source the 8-bit register of RM, D = 1 and
W = 0. -/
def Obligations.MovBD1DecodesToTheByteRecord : Prop :=
  ∀ s : State, s.status = .busy → EngTurn s → s.cursor ≠ s.slen → s.buf.read s.cursor = some 0x8A →
    (∀ b1 : Byte, s.cursor + 2 ≤ s.slen → s.buf.read (s.cursor + 1) = some b1 →
      ∃ r : Record,
        step s = .next { s with host := s.host.tail, out := s.out ++ [r], nrec := s.nrec + 1, cursor := s.cursor + 2 } ∧
        regCode r.destination = 0#1 ++ b1.extractLsb' 5 1 ++ b1.extractLsb' 3 2 ∧
        regCode r.source = 0#1 ++ b1.extractLsb' 2 1 ++ b1.extractLsb' 0 2 ∧
        r.mod = b1.extractLsb' 6 2 ∧ r.d = true ∧ r.w = false) ∧
    (s.slen < s.cursor + 2 → ∃ t, step s = .next t ∧ t.status = .error ∧ t.err = .truncated)

/-- R83: as R82 for the leading byte 0x8B, the registers 16-bit, D = 1 and W = 1. -/
def Obligations.MovWD1DecodesToTheWordRecord : Prop :=
  ∀ s : State, s.status = .busy → EngTurn s → s.cursor ≠ s.slen → s.buf.read s.cursor = some 0x8B →
    (∀ b1 : Byte, s.cursor + 2 ≤ s.slen → s.buf.read (s.cursor + 1) = some b1 →
      ∃ r : Record,
        step s = .next { s with host := s.host.tail, out := s.out ++ [r], nrec := s.nrec + 1, cursor := s.cursor + 2 } ∧
        regCode r.destination = 1#1 ++ b1.extractLsb' 5 1 ++ b1.extractLsb' 3 2 ∧
        regCode r.source = 1#1 ++ b1.extractLsb' 2 1 ++ b1.extractLsb' 0 2 ∧
        r.mod = b1.extractLsb' 6 2 ∧ r.d = true ∧ r.w = true) ∧
    (s.slen < s.cursor + 2 → ∃ t, step s = .next t ∧ t.status = .error ∧ t.err = .truncated)

/-- The two forms with D = 0 run in every state and on all operands: their record has RM's register as destination, and
only OUT, NREC and CURSOR change (40_register_move.md section of R80 and R81; the split of the work between decoder and
meaning is the model's, log entry 7). -/
def Obligations.DirectionZeroFormsComplete : Prop :=
  ∀ (mod : BitVec 2) (reg rm : RegisterRef) (s : State),
    exec (.movBD0 mod reg rm) s =
      .next { s with cursor := s.cursor + 2, nrec := s.nrec + 1,
                     out := s.out ++ [{ destination := rm, source := reg, mod := mod, d := false, w := false }] } ∧
    exec (.movWD0 mod reg rm) s =
      .next { s with cursor := s.cursor + 2, nrec := s.nrec + 1,
                     out := s.out ++ [{ destination := rm, source := reg, mod := mod, d := false, w := true }] }

/-- The two forms with D = 1 run in every state and on all operands: their record has REG's register as destination, and
only OUT, NREC and CURSOR change (log entry 7). -/
def Obligations.DirectionOneFormsComplete : Prop :=
  ∀ (mod : BitVec 2) (reg rm : RegisterRef) (s : State),
    exec (.movBD1 mod reg rm) s =
      .next { s with cursor := s.cursor + 2, nrec := s.nrec + 1,
                     out := s.out ++ [{ destination := reg, source := rm, mod := mod, d := true, w := false }] } ∧
    exec (.movWD1 mod reg rm) s =
      .next { s with cursor := s.cursor + 2, nrec := s.nrec + 1,
                     out := s.out ++ [{ destination := reg, source := rm, mod := mod, d := true, w := true }] }

/-- The frame of all four forms: no register but OUT, NREC and CURSOR changes, the records before it stay, no pin and no
pending host action changes, and every byte of the buffer reads as before (40_register_move.md; 20_memory.md section 4). -/
def Obligations.RegisterMoveFrame : Prop :=
  ∀ (i : Instr) (s t : State), exec i s = .next t →
    t.status = s.status ∧ t.err = s.err ∧ t.slen = s.slen ∧ t.lenIn = s.lenIn ∧ t.outIdx = s.outIdx ∧
    t.host = s.host ∧ t.out.length = s.out.length + 1 ∧
    (∀ k, k < s.out.length → t.out[k]? = s.out[k]?) ∧
    (∀ a, t.buf.read a = s.buf.read a)

/-! ### One step -/

/-- When the two bytes at CURSOR decode to an instruction, ENG's step is exec of it; around it the step only takes the
host's entry off its list. -/
def Obligations.StepRunsTheDecodedInstruction : Prop :=
  ∀ (s : State) (b0 b1 : Byte) (i : Instr), s.status = .busy → EngTurn s → s.cursor + 2 ≤ s.slen →
    s.buf.read s.cursor = some b0 → s.buf.read (s.cursor + 1) = some b1 → decode [b0, b1] = .ok (i, []) →
    step s = exec i { s with host := s.host.tail }

/-- R93, the decode step: ENG appends decode_one's record, adds one to NREC and advances CURSOR by the returned count. -/
def Obligations.DecodeStepFollowsDecodeOne : Prop :=
  ∀ (s : State) (mem : Nat → Byte) (r : Record) (n : Nat),
    s.status = .busy → EngTurn s → s.cursor ≠ s.slen → Placed s s.slen mem →
    decodeOne s.slen mem s.cursor = .ok (r, n) →
    step s = .next { s with host := s.host.tail, out := s.out ++ [r], nrec := s.nrec + 1, cursor := s.cursor + n }

/-- The error step of 41_decode_engine.md section 3: STATUS becomes ERROR, ERR the failure's code, OUT and NREC are
cleared (the spec's decision D10) and CURSOR is kept (its decision D11). -/
def Obligations.ErrorStepFollowsDecodeOne : Prop :=
  ∀ (s : State) (mem : Nat → Byte) (e : Failure),
    s.status = .busy → EngTurn s → s.cursor ≠ s.slen → Placed s s.slen mem →
    decodeOne s.slen mem s.cursor = .error e →
    step s = .next { s with host := s.host.tail, status := .error, err := errOf e, out := [], nrec := 0 }

/-- R94, the completion step: at the end of the buffer STATUS becomes DONE and nothing else changes. -/
def Obligations.CompletionStepEndsThePass : Prop :=
  ∀ s : State, s.status = .busy → EngTurn s → s.cursor = s.slen →
    step s = .next { s with host := s.host.tail, status := .done }

/-- Taking a failure (60_exceptions.md section 3): the step leaves STATUS in ERROR with the failure's code, SLEN and the
buffer as they were, and no record visible, on OUT_REC at any index or rendered. That OUT is cleared is the spec's decision
D10 and that CURSOR is kept its decision D11; that a pass in ERROR renders nothing rests on log entry 14 (DEDUCED). -/
def Obligations.FailureDiscardsEveryRecord : Prop :=
  ∀ (s t : State) (mem : Nat → Byte) (e : Failure),
    s.status = .busy → EngTurn s → s.cursor ≠ s.slen → Placed s s.slen mem →
    decodeOne s.slen mem s.cursor = .error e → step s = .next t →
    t.status = .error ∧ t.err = errOf e ∧ t.slen = s.slen ∧ t.cursor = s.cursor ∧ t.buf = s.buf ∧ t.out = [] ∧
    (∀ i, outRec { t with outIdx := i } = 0) ∧ renderedPass t = []

/-- START in IDLE, DONE or ERROR begins a pass at offset 0 with SLEN = LEN_IN and the last pass's OUT and ERR discarded;
START while BUSY has no effect (41_decode_engine.md section 3, decisions D15 and D22). -/
def Obligations.StartBeginsAPassUnlessBusy : Prop :=
  ∀ s : State, pendingAction s = some .start →
    (s.status ≠ .busy →
      step s = .next { s with host := s.host.tail, status := .busy, err := .none, cursor := 0, slen := s.lenIn,
                              nrec := 0, out := [] }) ∧
    (s.status = .busy → step s = .next { s with host := s.host.tail })

/-- RESET returns every register of ENG to its reset value in whatever state the block is, BUSY included, and leaves the
buffer and the pins (70_reset_and_hazards.md section 1, decisions D9 and D14). -/
def Obligations.ResetReturnsEveryRegister : Prop :=
  ∀ s : State, pendingAction s = some .reset →
    ∃ t, step s = .next t ∧
      t.status = State.reset.status ∧ t.err = State.reset.err ∧ t.cursor = State.reset.cursor ∧
      t.slen = State.reset.slen ∧ t.nrec = State.reset.nrec ∧ t.out = State.reset.out ∧
      t.buf = s.buf ∧ t.lenIn = s.lenIn ∧ t.outIdx = s.outIdx ∧ t.host = s.host.tail

/-- The reset values of 10_state.md section 5 (the spec's decision D9), as the host reads them on the port. -/
def Obligations.ResetStateHoldsTheResetValues : Prop :=
  State.reset.status = .idle ∧ State.reset.err = .none ∧ State.reset.cursor = 0 ∧ State.reset.slen = 0 ∧
  State.reset.nrec = 0 ∧ State.reset.out = [] ∧
  [0, 1, 2, 3, 4].map (readPort · State.reset) = [some 0, some 0, some 0, some 0, some 0]

/-- Outside BUSY ENG takes no step: every register keeps its value (60_exceptions.md section 5, decision D17; that the
model's step then answers the same state is log entry 10). -/
def Obligations.EngineWaitsOutsideBusy : Prop :=
  ∀ s : State, s.status ≠ .busy → EngTurn s → step s = .next { s with host := s.host.tail }

/-- R108: ERROR is terminal for the pass: a step that leaves it is the host's START or RESET, and a step that stays in it
keeps ERR, CURSOR, SLEN, NREC and OUT. -/
def Obligations.OnlyStartOrResetLeavesError : Prop :=
  ∀ s t : State, s.status = .error → step s = .next t →
    (t.status ≠ .error → pendingAction s = some .start ∨ pendingAction s = some .reset) ∧
    (t.status = .error → t.err = s.err ∧ t.cursor = s.cursor ∧ t.slen = s.slen ∧ t.nrec = s.nrec ∧ t.out = s.out)

/-- A change of LEN_IN during a pass has no effect on it: it changes the pin and nothing else, and ENG's step is the same
whatever the pin carries (70_reset_and_hazards.md section 3, decision D22). -/
def Obligations.LenInDoesNotReachARunningPass : Prop :=
  (∀ (s : State) (n : Nat), pendingAction s = some (.driveLenIn n) →
    step s = .next { s with host := s.host.tail, lenIn := n }) ∧
  (∀ (s t : State) (n : Nat), EngTurn s → step s = .next t →
    step { s with lenIn := n } = .next { t with lenIn := n })

/-- While a pass runs, a host that neither raises RESET nor writes the pass's bytes changes no register of ENG and no byte
below SLEN (60_exceptions.md section 5, decision D13; that such an action is a step of its own is log entry 2). -/
def Obligations.HostActionsDoNotDisturbAPass : Prop :=
  ∀ (s : State) (act : HostAction), s.status = .busy → pendingAction s = some act → act ≠ .reset →
    (∀ a b, act = .placeByte a b → s.slen ≤ a) →
    ∃ t, step s = .next t ∧ t.status = s.status ∧ t.err = s.err ∧ t.cursor = s.cursor ∧ t.slen = s.slen ∧
      t.nrec = s.nrec ∧ t.out = s.out ∧ ∀ a, a < s.slen → t.buf.read a = s.buf.read a

/-- R98: CURSOR changes in three places only: a START that begins a pass and RESET set it to 0, and a decode step adds its
instruction's byte count, two, with one record. -/
def Obligations.CursorChangesInThreePlacesOnly : Prop :=
  ∀ s t : State, step s = .next t → t.cursor ≠ s.cursor →
    (pendingAction s = some .start ∧ s.status ≠ .busy ∧ t.cursor = 0) ∨
    (pendingAction s = some .reset ∧ t.cursor = 0) ∨
    (EngTurn s ∧ s.status = .busy ∧ t.cursor = s.cursor + 2 ∧ t.nrec = s.nrec + 1 ∧
      ∃ i, step s = exec i { s with host := s.host.tail })

/-! ### The buffer -/

/-- R41: a byte is read only at an offset below SLEN; the reads are those of CURSOR and, only when b0's class is matched
and two bytes remain, of CURSOR + 1. -/
def Obligations.FetchReadsOnlyInsideTheBuffer : Prop :=
  ∀ s : State,
    (∀ a ∈ fetchAddrs s, a < s.slen) ∧
    (s.cursor < s.slen →
      fetchAddrs s = [s.cursor] ∨
      (fetchAddrs s = [s.cursor, s.cursor + 1] ∧ s.cursor + 2 ≤ s.slen ∧
        ∃ b0, s.buf.read s.cursor = some b0 ∧ matchesClass b0 = true)) ∧
    (s.slen ≤ s.cursor → fetchAddrs s = [])

/-- A step in which the host places no byte leaves the whole buffer as it was: the block never stores to it (20_memory.md
section 4). And while a pass runs no step that answers a next state changes a byte of the pass: the spec leaves that to the
host's duty, and it holds here because the model refuses such a host write (log entry 4, DESIGN CHOICE, after U6). -/
def Obligations.OnlyTheHostWritesTheBuffer : Prop :=
  ∀ s t : State, step s = .next t →
    ((∀ a b, pendingAction s ≠ some (.placeByte a b)) → t.buf = s.buf ∧ ∀ a, t.buf.read a = s.buf.read a) ∧
    (s.status = .busy → ∀ a, a < s.slen → t.buf.read a = s.buf.read a)

/-- A byte the host places lands: it reads back, every other offset reads as before, no register of ENG and no pin changes,
and the buffer keeps its canonical form (70_reset_and_hazards.md section 2; the form is the model's, log entry 3). -/
def Obligations.PlacedByteReadsBack : Prop :=
  ∀ (s : State) (a : Nat) (b : Byte), pendingAction s = some (.placeByte a b) → (s.status = .busy → s.slen ≤ a) →
    ∃ t, step s = .next t ∧ t.buf.read a = some b ∧ (∀ a', a' ≠ a → t.buf.read a' = s.buf.read a') ∧
      (s.buf.wf → t.buf.wf) ∧ { t with buf := s.buf, host := s.host } = s

/-- A write to the pass's bytes while BUSY is refused by name: 93_implementation_defined.md U6 says `refuse` (log entry 4). -/
def Obligations.WriteDuringPassIsRefused : Prop :=
  ∀ (s : State) (a : Nat) (b : Byte), s.status = .busy → pendingAction s = some (.placeByte a b) → a < s.slen →
    step s = .refused .bufferWrittenDuringPass

/-- The machine faults exactly when ENG's decode step reads an offset where the host has placed no byte. The fault is the
model's choice (log entry 3). -/
def Obligations.FaultsExactlyOnAnUnplacedByte : Prop :=
  ∀ (s : State) (f : Fault), step s = .fault f ↔
    s.status = .busy ∧ EngTurn s ∧ s.cursor ≠ s.slen ∧ ∃ a ∈ fetchAddrs s, s.buf.read a = none

/-- R89: decode_one is a function of c, SLEN and the two bytes at c and c + 1; and so ENG's step is the same, the buffer
apart, over any two buffers that agree there. -/
def Obligations.DecodingDependsOnTheTwoBytesOnly : Prop :=
  (∀ (slen c : Nat) (mem mem' : Nat → Byte), mem' c = mem c → mem' (c + 1) = mem (c + 1) →
    decodeOne slen mem' c = decodeOne slen mem c) ∧
  (∀ (s t : State) (m : Memory), EngTurn s → m.read s.cursor = s.buf.read s.cursor →
    m.read (s.cursor + 1) = s.buf.read (s.cursor + 1) → step s = .next t →
    step { s with buf := m } = .next { t with buf := m })

/-! ### Invariants -/

/-- The invariants of 10_state.md section 7 hold at reset. -/
def Obligations.InvariantHoldsAtReset : Prop := Inv State.reset ∧ OutIsPrefix State.reset

/-- Every step keeps the invariants of 10_state.md section 7 (which the spec marks as derived), with ERR nonzero exactly in
ERROR and never the unused code, both registers of every record at its width, IDLE all clear, and the buffer's form. -/
def Obligations.EveryStepKeepsTheInvariant : Prop := ∀ s t : State, Inv s → step s = .next t → Inv t

/-- R50: records enter OUT in the order of their instructions: every step keeps "while a pass runs, OUT[i] is the record of
the instruction at offset 2i". -/
def Obligations.OutStaysTheDecodedPrefix : Prop :=
  ∀ s t : State, Inv s → OutIsPrefix s → step s = .next t → OutIsPrefix t

/-- In every instance (MAX_LEN, ADDR_W) whose host drives lengths up to MAX_LEN, every step keeps that, and CURSOR, SLEN,
NREC and OUT fit their widths and capacity: the arithmetic cannot overflow (41_decode_engine.md section 4; that the
machine is unbounded and the instance a premise is log entry 1). -/
def Obligations.RegistersFitTheInstance : Prop :=
  ∀ (P : Config.Params) (s t : State), Inv s → WithinInstance P s → step s = .next t →
    WithinInstance P t ∧ t.slen < 2 ^ P.addrW ∧ t.cursor < 2 ^ P.addrW ∧ t.nrec < 2 ^ P.addrW ∧
    t.out.length ≤ P.maxRecords

/-! ### A whole pass -/

/-- R91: decode_all answers a list exactly when every instruction decodes: LEN is even, there are LEN / 2 records and
record i is decode_one's at offset 2i; it answers a failure exactly when it is that of the first failing instruction, and
then no list. An empty buffer gives the empty list (the case LEN = 0). -/
def Obligations.DecodeAllIsAllOrNothing : Prop :=
  ∀ (len : Nat) (mem : Nat → Byte),
    (∀ L : List Record, decodeAll len mem = .ok L ↔
      len % 2 = 0 ∧ L.length = len / 2 ∧ ∀ i r, L[i]? = some r → decodeOne len mem (2 * i) = .ok (r, 2)) ∧
    (∀ e : Failure, decodeAll len mem = .error e ↔
      ∃ k, 2 * k < len ∧ decodeOne len mem (2 * k) = .error e ∧
        ∀ j, j < k → ∃ r, decodeOne len mem (2 * j) = .ok (r, 2))

/-- R106: the failure of a pass, reported with its offset c, is the one of the first failing instruction in stream order:
c is inside the buffer, decode_one fails there with it, and every instruction before c decodes. No byte after that
instruction matters: another buffer that agrees up to its two bytes fails in the same way at the same offset. -/
def Obligations.BytesAfterTheFailureDoNotMatter : Prop :=
  ∀ (len c : Nat) (mem : Nat → Byte) (e : Failure), decodePass len mem = .error (e, c) →
    c < len ∧ c % 2 = 0 ∧ decodeOne len mem c = .error e ∧
    (∀ j, 2 * j < c → ∃ r, decodeOne len mem (2 * j) = .ok (r, 2)) ∧
    (∀ mem' : Nat → Byte, (∀ a, a < c + 2 → mem' a = mem a) → decodePass len mem' = .error (e, c))

/-- A successful pass (41_decode_engine.md section 3, which the spec marks as derived): from any state outside BUSY, a START
over a placed buffer of n bytes is followed by n / 2 decode steps, BUSY throughout, and one completion step, and ends in
DONE with decode_all's list, NREC = n / 2 and CURSOR = n. One run step is START's; the host then leaves every turn to ENG,
the spec's fairness (decision D12; log entry 2). The machine is unbounded, so n takes no premise n <= MAX_LEN (log entry 1,
after D7 and U4): for an instance, read it at lengths up to its MAX_LEN. -/
def Obligations.PassEndsDoneWithDecodeAllsList : Prop :=
  ∀ (s : State) (mem : Nat → Byte) (L : List Record),
    s.status ≠ .busy → s.host = [some .start] → Placed s s.lenIn mem → decodeAll s.lenIn mem = .ok L →
    (∀ k, k ≤ s.lenIn / 2 → ∃ t, run (1 + k) s = .next t ∧ t.status = .busy) ∧
    run (1 + (s.lenIn / 2 + 1)) s =
      .next { s with host := [], status := .done, err := .none, cursor := s.lenIn, slen := s.lenIn,
                     nrec := s.lenIn / 2, out := L }

/-- A failing pass (as above): it ends after c / 2 decode steps and one error step in ERROR, with ERR the failure's code,
OUT empty, NREC = 0 and CURSOR the failing instruction's offset c (decisions D10 and D11). It takes no premise
LEN <= MAX_LEN either (log entry 1, after D7 and U4). -/
def Obligations.PassEndsInErrorAtTheFailingOffset : Prop :=
  ∀ (s : State) (mem : Nat → Byte) (e : Failure) (c : Nat),
    s.status ≠ .busy → s.host = [some .start] → Placed s s.lenIn mem → decodePass s.lenIn mem = .error (e, c) →
    (∀ k, k ≤ c / 2 → ∃ t, run (1 + k) s = .next t ∧ t.status = .busy) ∧
    run (1 + (c / 2 + 1)) s =
      .next { s with host := [], status := .error, err := errOf e, cursor := c, slen := s.lenIn, nrec := 0, out := [] }

/-! ### What the host sees -/

/-- The record word of 10_state.md section 2 (decision D3): MOD in 11:10, D in 9, W in 8, DST in 7:4 and SRC in 3:0; and in
every record of a state that meets the invariant DST[3] = SRC[3] = W. -/
def Obligations.RecordWordLayout : Prop :=
  (∀ r : Record, (packRecord r).extractLsb' 10 2 = r.mod ∧ (packRecord r).getLsbD 9 = r.d ∧
    (packRecord r).getLsbD 8 = r.w ∧ (packRecord r).extractLsb' 4 4 = regCode r.destination ∧
    (packRecord r).extractLsb' 0 4 = regCode r.source) ∧
  (∀ (s : State) (r : Record), Inv s → r ∈ s.out →
    (packRecord r).getLsbD 7 = (packRecord r).getLsbD 8 ∧ (packRecord r).getLsbD 3 = (packRecord r).getLsbD 8)

/-- The read port and OUT_REC (10_state.md sections 5 and 6, decisions D3, D5 and D6): the registers under their numbers
with the codes of STATUS and ERR, and the record at OUT_IDX below NREC, else 0. -/
def Obligations.ReadPortAndOutRec : Prop :=
  ∀ s : State, Inv s →
    (readPort 0 s = some 0 ↔ s.status = .idle) ∧ (readPort 0 s = some 1 ↔ s.status = .busy) ∧
    (readPort 0 s = some 2 ↔ s.status = .done) ∧ (readPort 0 s = some 3 ↔ s.status = .error) ∧
    (readPort 1 s = some 0 ↔ s.err = .none) ∧ (readPort 1 s = some 1 ↔ s.err = .truncated) ∧
    (readPort 1 s = some 2 ↔ s.err = .unknownOpcode) ∧ readPort 1 s ≠ some 3 ∧
    readPort 2 s = some s.cursor ∧ readPort 3 s = some s.slen ∧ readPort 4 s = some s.nrec ∧
    (∀ i r, s.out[i]? = some r → outRec { s with outIdx := i } = packRecord r) ∧
    (∀ i, s.nrec ≤ i → outRec { s with outIdx := i } = 0)

/-- OUT is a result only at DONE; a pass that failed has its failure and no list, and IDLE and BUSY have no result
(70_reset_and_hazards.md section 3; 93_implementation_defined.md U11; log entry 14). -/
def Obligations.OnlyDoneHasARecordList : Prop :=
  ∀ (s : State) (L : List Record), passResult s = some (.ok L) ↔ s.status = .done ∧ L = s.out

/-- R76 and R77: a record renders as `MOV <dest>,<src>` with the canonical upper-case names, the sideband is not
shown, and so the text does not tell the form with D = 0 from the one with D = 1 and the fields exchanged. -/
def Obligations.RenderShowsTheTwoRegistersOnly : Prop :=
  (∀ r : Record, render r = "MOV " ++ (regName r.destination ++ ("," ++ regName r.source))) ∧
  (∀ r r' : Record, r'.destination = r.destination → r'.source = r.source → render r' = render r) ∧
  (∀ (w : Bool) (mod mod' : BitVec 2) (a b : RegisterRef),
    render (moveRecord false w mod a b) = render (moveRecord true w mod' b a)) ∧
  ([.al, .cl, .dl, .bl, .ah, .ch, .dh, .bh, .ax, .cx, .dx, .bx, .sp, .bp, .si, .di].map regName =
    ["AL", "CL", "DL", "BL", "AH", "CH", "DH", "BH", "AX", "CX", "DX", "BX", "SP", "BP", "SI", "DI"])

/-- CLS, RFX and RTAB's outputs (10_state.md section 6): MATCH on the signature, D and W from their bits on every byte;
FIRST and SECOND the codes {W, field}, MOD the top two bits, GERR constant 0; REF = {W, ALT, GROUP}. Rests on bit places
the spec infers (log entry 12). -/
def Obligations.SubBlockOutputs : Prop :=
  (∀ b0 : Byte, (cls b0).isMatch = decide (b0 &&& 0xFC = 0x88) ∧ (cls b0).d = b0.getLsbD 1 ∧
    (cls b0).w = b0.getLsbD 0) ∧
  (∀ (b1 : Byte) (w : Bool), (rfx b1 w).first = BitVec.ofBool w ++ b1.extractLsb' 3 3 ∧
    (rfx b1 w).second = BitVec.ofBool w ++ b1.extractLsb' 0 3 ∧ (rfx b1 w).mod = b1.extractLsb' 6 2 ∧
    (rfx b1 w).gerr = false) ∧
  (∀ (g : BitVec 2) (a w : Bool), rtabRef g a w = BitVec.ofBool w ++ BitVec.ofBool a ++ g)

/-- DEC's outputs at the cursor are decode_one's there (10_state.md section 6, decisions D3 and D20): OK, NBYTES, MOD, DST
and SRC of its record, or OK = 0 with its failure's code and the rest 0; CLASS, D and W follow B0 where a byte is there. -/
def Obligations.DecOutputsFollowDecodeOne : Prop :=
  ∀ (s : State) (mem : Nat → Byte), s.cursor ≤ s.slen →
    (∀ r n, decodeOne s.slen mem s.cursor = .ok (r, n) →
      (decAt s mem).ok = true ∧ (decAt s mem).errc = 0 ∧ (decAt s mem).nbytes = BitVec.ofNat 2 n ∧
      (decAt s mem).mod = r.mod ∧ (decAt s mem).dst = regCode r.destination ∧ (decAt s mem).src = regCode r.source) ∧
    (∀ e, decodeOne s.slen mem s.cursor = .error e →
      (decAt s mem).ok = false ∧ (decAt s mem).errc = errCode (errOf e) ∧ (decAt s mem).nbytes = 0 ∧
      (decAt s mem).mod = 0 ∧ (decAt s mem).dst = 0 ∧ (decAt s mem).src = 0) ∧
    (s.cursor < s.slen → (decAt s mem).isClass = matchesClass (mem s.cursor) ∧
      (decAt s mem).d = directionFlag (mem s.cursor) ∧ (decAt s mem).w = widthFlag (mem s.cursor)) ∧
    (s.cursor = s.slen → (decAt s mem).isClass = false ∧ (decAt s mem).d = false ∧ (decAt s mem).w = false)
end

