-- ==== Sys2Proof/Laws/Decode.lean ====
section
/-! SUPPORT. What the register table, the field extractor, the classifier and the decoder answer. -/

namespace Sys2Proof

theorem knownGroups_contains (g : BitVec 2) : Machine.knownGroups.contains g = true := by
  revert g; decide

@[simp] theorem fieldRegister_eq (f : BitVec 3) (w : Bool) :
    Machine.fieldRegister f w = .ok (Machine.rtab (Machine.groupOf f) (Machine.altOf f) w) := by
  rw [Machine.fieldRegister, if_pos (knownGroups_contains _)]

/-- The field extractor always answers (R64, R103). -/
theorem operandDecode_eq (b1 : Byte) (w : Bool) :
    Machine.operandDecode b1 w =
      .ok (Machine.rtab (Machine.groupOf (Machine.regField b1)) (Machine.altOf (Machine.regField b1)) w,
        Machine.rtab (Machine.groupOf (Machine.rmField b1)) (Machine.altOf (Machine.rmField b1)) w) := by
  simp [Machine.operandDecode]

theorem isWordReg_rtab (g : BitVec 2) (a w : Bool) : Machine.isWordReg (Machine.rtab g a w) = w := by
  revert g a w; decide

/-- The code of the register a field names is the width flag above the field (R21, R63). -/
theorem regCode_rtab (f : BitVec 3) (w : Bool) :
    Machine.regCode (Machine.rtab (Machine.groupOf f) (Machine.altOf f) w) = BitVec.ofBool w ++ f := by
  revert f w; decide

/-- The classifier answers RegisterMove or UnknownOpcode, as the signature says (R66). -/
theorem classify_eq (b0 : Byte) :
    classify b0 = if b0 &&& 0xFC = 0x88 then .ok .registerMove else .error .unknownOpcode := by
  simp only [classify, signatureTable, List.find?_cons, List.find?_nil]
  by_cases h : b0 &&& 0xFC = 0x88
  · rw [if_pos h, beq_iff_eq.mpr h]
  · rw [if_neg h, beq_eq_false_iff_ne.mpr h]

theorem matchesClass_iff (b0 : Byte) : matchesClass b0 = true ↔ b0 &&& 0xFC = 0x88 := by
  rw [matchesClass, classify_eq]
  by_cases h : b0 &&& 0xFC = 0x88
  · rw [if_pos h]; exact iff_of_true rfl h
  · rw [if_neg h]; exact iff_of_false Bool.false_ne_true h

theorem classify_of_match {b0 : Byte} (h : matchesClass b0 = true) : classify b0 = .ok .registerMove := by
  rw [classify_eq, if_pos ((matchesClass_iff b0).mp h)]

theorem classify_of_not_match {b0 : Byte} (h : ¬ matchesClass b0 = true) :
    classify b0 = .error .unknownOpcode := by
  rw [classify_eq, if_neg (fun c => h ((matchesClass_iff b0).mpr c))]

@[simp] theorem classLength_eq (c : InstructionClass) : classLength c = 2 := by cases c; rfl

/-- The instruction that a matched leading byte and an operand byte make. -/
def instrOf (b0 b1 : Byte) : Instr :=
  formOf (Machine.directionFlag b0) (Machine.widthFlag b0) (Machine.modField b1)
    (Machine.rtab (Machine.groupOf (Machine.regField b1)) (Machine.altOf (Machine.regField b1)) (Machine.widthFlag b0))
    (Machine.rtab (Machine.groupOf (Machine.rmField b1)) (Machine.altOf (Machine.rmField b1)) (Machine.widthFlag b0))

theorem decode_nil : decode [] = .error .truncated := rfl

theorem decode_unmatched {b0 : Byte} (rest : List Byte) (h : ¬ matchesClass b0 = true) :
    decode (b0 :: rest) = .error .unknownOpcode := by
  simp only [decode, classify_of_not_match h]

theorem decode_lone {b0 : Byte} (h : matchesClass b0 = true) : decode [b0] = .error .truncated := by
  simp only [decode, classify_of_match h]

theorem decode_pair {b0 : Byte} (b1 : Byte) (rest : List Byte) (h : matchesClass b0 = true) :
    decode (b0 :: b1 :: rest) = .ok (instrOf b0 b1, rest) := by
  simp only [decode, classify_of_match h, operandDecode_eq, instrOf]

/-- Everything a successful decoding can be. -/
theorem decode_ok_cases {bytes rest : List Byte} {i : Instr} (h : decode bytes = .ok (i, rest)) :
    ∃ b0 b1, bytes = b0 :: b1 :: rest ∧ matchesClass b0 = true ∧ i = instrOf b0 b1 := by
  match bytes with
  | [] => simp [decode] at h
  | b0 :: tl =>
    by_cases hm : matchesClass b0 = true
    · match tl with
      | [] => simp [decode_lone hm] at h
      | b1 :: rest' =>
        rw [decode_pair b1 rest' hm] at h
        simp only [Except.ok.injEq, Prod.mk.injEq] at h
        exact ⟨b0, b1, by rw [h.2], hm, h.1.symm⟩
    · simp [decode_unmatched tl hm] at h

/-- A decoding fails in two ways only: no input raises UnknownRegisterGroup. -/
theorem decode_error_cases {bytes : List Byte} {e : Failure} (h : decode bytes = .error e) :
    e = .truncated ∨ e = .unknownOpcode := by
  match bytes with
  | [] => simp [decode] at h; exact .inl h.symm
  | b0 :: tl =>
    by_cases hm : matchesClass b0 = true
    · match tl with
      | [] => rw [decode_lone hm] at h; cases h; exact .inl rfl
      | b1 :: rest' => simp [decode_pair b1 rest' hm] at h
    · rw [decode_unmatched tl hm] at h; cases h; exact .inr rfl

end Sys2Proof
end

