-- ==== Sys2Proof/Laws/Memory.lean ====
section
/-! SUPPORT. The buffer: a placed byte reads back, the others stay, and the canonical form is kept. -/

namespace Sys2Proof.Machine

theorem read_write_same (m : Memory) (a : Nat) (b : Byte) : (m.write a b).read a = some b := by
  induction m with
  | nil => simp [Memory.write, Memory.read]
  | cons x rest ih =>
    obtain ⟨k, v⟩ := x
    simp only [Memory.write]
    split
    · simp [Memory.read]
    · split
      · simp [Memory.read]
      · rename_i hlt hne
        simp [Memory.read, hne, ih]

theorem read_write_other (m : Memory) {a a' : Nat} (b : Byte) (h : a' ≠ a) :
    (m.write a b).read a' = m.read a' := by
  induction m with
  | nil => simp [Memory.write, Memory.read, h]
  | cons x rest ih =>
    obtain ⟨k, v⟩ := x
    simp only [Memory.write]
    split
    · simp [Memory.read, h]
    · split
      · rename_i heq
        subst heq
        simp [Memory.read, h]
      · simp only [Memory.read, ih]

/-- Every offset listed after a write was listed before, or is the written one. -/
theorem mem_write {m : Memory} {a : Nat} {b : Byte} {x : Host.Cell} (h : x ∈ m.write a b) :
    x ∈ m ∨ x = (a, b) := by
  induction m with
  | nil => simpa [Memory.write] using h
  | cons y rest ih =>
    obtain ⟨k, v⟩ := y
    simp only [Memory.write] at h
    split at h
    · simpa [or_comm] using h
    · split at h
      · rcases List.mem_cons.mp h with h | h
        · exact .inr h
        · exact .inl (List.mem_cons_of_mem _ h)
      · rcases List.mem_cons.mp h with h | h
        · exact .inl (by simp [h])
        · exact (ih h).imp (List.mem_cons_of_mem _) id

theorem write_wf {m : Memory} (a : Nat) (b : Byte) (h : m.wf) : (m.write a b).wf := by
  induction m with
  | nil => simp [Memory.write, Memory.wf]
  | cons y rest ih =>
    obtain ⟨k, v⟩ := y
    rw [Memory.wf, List.pairwise_cons] at h
    simp only [Memory.write]
    split
    · rename_i hlt
      refine List.pairwise_cons.mpr ⟨fun x hx => ?_, List.pairwise_cons.mpr h⟩
      rcases List.mem_cons.mp hx with rfl | hx
      · exact hlt
      · exact lt_trans hlt (h.1 x hx)
    · split
      · rename_i heq
        subst heq
        exact List.pairwise_cons.mpr h
      · rename_i hlt hne
        refine List.pairwise_cons.mpr ⟨fun x hx => ?_, ih h.2⟩
        rcases mem_write hx with hx | rfl
        · exact h.1 x hx
        · simp only; omega

/-- A list of offsets that all hold a byte reads as those bytes. -/
theorem readAll_eq_some {m : Memory} {mem : Nat → Byte} {as : List Nat}
    (h : ∀ a ∈ as, m.read a = some (mem a)) : m.readAll as = some (as.map mem) := by
  induction as with
  | nil => rfl
  | cons a rest ih =>
    simp [Memory.readAll, h a (by simp), ih fun x hx => h x (by simp [hx])]

theorem readAll_eq_none_iff {m : Memory} {as : List Nat} :
    m.readAll as = none ↔ ∃ a ∈ as, m.read a = none := by
  induction as with
  | nil => simp [Memory.readAll]
  | cons a rest ih =>
    simp only [Memory.readAll]
    cases h : m.read a with
    | none => simp [h]
    | some b => simp [ih, h]

end Sys2Proof.Machine
end

