-- ==== Sys2Proof/Laws/State.lean ====
section
/-! SUPPORT. One lemma for each field under each transfer of State: what it becomes, or that it stays. -/

namespace Sys2Proof.Machine

@[simp] theorem retire_status (r : Record) (n : Nat) (s : State) : (retire r n s).status = s.status := rfl
@[simp] theorem retire_err (r : Record) (n : Nat) (s : State) : (retire r n s).err = s.err := rfl
@[simp] theorem retire_cursor (r : Record) (n : Nat) (s : State) : (retire r n s).cursor = s.cursor + n := rfl
@[simp] theorem retire_slen (r : Record) (n : Nat) (s : State) : (retire r n s).slen = s.slen := rfl
@[simp] theorem retire_nrec (r : Record) (n : Nat) (s : State) : (retire r n s).nrec = s.nrec + 1 := rfl
@[simp] theorem retire_out (r : Record) (n : Nat) (s : State) : (retire r n s).out = s.out ++ [r] := rfl
@[simp] theorem retire_lenIn (r : Record) (n : Nat) (s : State) : (retire r n s).lenIn = s.lenIn := rfl
@[simp] theorem retire_outIdx (r : Record) (n : Nat) (s : State) : (retire r n s).outIdx = s.outIdx := rfl
@[simp] theorem retire_buf (r : Record) (n : Nat) (s : State) : (retire r n s).buf = s.buf := rfl
@[simp] theorem retire_host (r : Record) (n : Nat) (s : State) : (retire r n s).host = s.host := rfl

@[simp] theorem completePass_status (s : State) : (completePass s).status = .done := rfl
@[simp] theorem completePass_err (s : State) : (completePass s).err = s.err := rfl
@[simp] theorem completePass_cursor (s : State) : (completePass s).cursor = s.cursor := rfl
@[simp] theorem completePass_slen (s : State) : (completePass s).slen = s.slen := rfl
@[simp] theorem completePass_nrec (s : State) : (completePass s).nrec = s.nrec := rfl
@[simp] theorem completePass_out (s : State) : (completePass s).out = s.out := rfl
@[simp] theorem completePass_lenIn (s : State) : (completePass s).lenIn = s.lenIn := rfl
@[simp] theorem completePass_outIdx (s : State) : (completePass s).outIdx = s.outIdx := rfl
@[simp] theorem completePass_buf (s : State) : (completePass s).buf = s.buf := rfl
@[simp] theorem completePass_host (s : State) : (completePass s).host = s.host := rfl

@[simp] theorem failPass_status (e : Failure) (s : State) : (failPass e s).status = .error := rfl
@[simp] theorem failPass_err (e : Failure) (s : State) : (failPass e s).err = errOf e := rfl
@[simp] theorem failPass_cursor (e : Failure) (s : State) : (failPass e s).cursor = s.cursor := rfl
@[simp] theorem failPass_slen (e : Failure) (s : State) : (failPass e s).slen = s.slen := rfl
@[simp] theorem failPass_nrec (e : Failure) (s : State) : (failPass e s).nrec = 0 := rfl
@[simp] theorem failPass_out (e : Failure) (s : State) : (failPass e s).out = [] := rfl
@[simp] theorem failPass_lenIn (e : Failure) (s : State) : (failPass e s).lenIn = s.lenIn := rfl
@[simp] theorem failPass_outIdx (e : Failure) (s : State) : (failPass e s).outIdx = s.outIdx := rfl
@[simp] theorem failPass_buf (e : Failure) (s : State) : (failPass e s).buf = s.buf := rfl
@[simp] theorem failPass_host (e : Failure) (s : State) : (failPass e s).host = s.host := rfl

@[simp] theorem beginPass_status (s : State) : (beginPass s).status = .busy := rfl
@[simp] theorem beginPass_err (s : State) : (beginPass s).err = .none := rfl
@[simp] theorem beginPass_cursor (s : State) : (beginPass s).cursor = 0 := rfl
@[simp] theorem beginPass_slen (s : State) : (beginPass s).slen = s.lenIn := rfl
@[simp] theorem beginPass_nrec (s : State) : (beginPass s).nrec = 0 := rfl
@[simp] theorem beginPass_out (s : State) : (beginPass s).out = [] := rfl
@[simp] theorem beginPass_lenIn (s : State) : (beginPass s).lenIn = s.lenIn := rfl
@[simp] theorem beginPass_outIdx (s : State) : (beginPass s).outIdx = s.outIdx := rfl
@[simp] theorem beginPass_buf (s : State) : (beginPass s).buf = s.buf := rfl
@[simp] theorem beginPass_host (s : State) : (beginPass s).host = s.host := rfl

@[simp] theorem resetBlock_status (s : State) : (resetBlock s).status = .idle := rfl
@[simp] theorem resetBlock_err (s : State) : (resetBlock s).err = .none := rfl
@[simp] theorem resetBlock_cursor (s : State) : (resetBlock s).cursor = 0 := rfl
@[simp] theorem resetBlock_slen (s : State) : (resetBlock s).slen = 0 := rfl
@[simp] theorem resetBlock_nrec (s : State) : (resetBlock s).nrec = 0 := rfl
@[simp] theorem resetBlock_out (s : State) : (resetBlock s).out = [] := rfl
@[simp] theorem resetBlock_lenIn (s : State) : (resetBlock s).lenIn = s.lenIn := rfl
@[simp] theorem resetBlock_outIdx (s : State) : (resetBlock s).outIdx = s.outIdx := rfl
@[simp] theorem resetBlock_buf (s : State) : (resetBlock s).buf = s.buf := rfl
@[simp] theorem resetBlock_host (s : State) : (resetBlock s).host = s.host := rfl

@[simp] theorem dropHost_status (s : State) : (dropHost s).status = s.status := rfl
@[simp] theorem dropHost_err (s : State) : (dropHost s).err = s.err := rfl
@[simp] theorem dropHost_cursor (s : State) : (dropHost s).cursor = s.cursor := rfl
@[simp] theorem dropHost_slen (s : State) : (dropHost s).slen = s.slen := rfl
@[simp] theorem dropHost_nrec (s : State) : (dropHost s).nrec = s.nrec := rfl
@[simp] theorem dropHost_out (s : State) : (dropHost s).out = s.out := rfl
@[simp] theorem dropHost_lenIn (s : State) : (dropHost s).lenIn = s.lenIn := rfl
@[simp] theorem dropHost_outIdx (s : State) : (dropHost s).outIdx = s.outIdx := rfl
@[simp] theorem dropHost_buf (s : State) : (dropHost s).buf = s.buf := rfl
@[simp] theorem dropHost_host (s : State) : (dropHost s).host = s.host.tail := rfl

@[simp] theorem setLenIn_status (n : Nat) (s : State) : (setLenIn n s).status = s.status := rfl
@[simp] theorem setLenIn_err (n : Nat) (s : State) : (setLenIn n s).err = s.err := rfl
@[simp] theorem setLenIn_cursor (n : Nat) (s : State) : (setLenIn n s).cursor = s.cursor := rfl
@[simp] theorem setLenIn_slen (n : Nat) (s : State) : (setLenIn n s).slen = s.slen := rfl
@[simp] theorem setLenIn_nrec (n : Nat) (s : State) : (setLenIn n s).nrec = s.nrec := rfl
@[simp] theorem setLenIn_out (n : Nat) (s : State) : (setLenIn n s).out = s.out := rfl
@[simp] theorem setLenIn_lenIn (n : Nat) (s : State) : (setLenIn n s).lenIn = n := rfl
@[simp] theorem setLenIn_outIdx (n : Nat) (s : State) : (setLenIn n s).outIdx = s.outIdx := rfl
@[simp] theorem setLenIn_buf (n : Nat) (s : State) : (setLenIn n s).buf = s.buf := rfl
@[simp] theorem setLenIn_host (n : Nat) (s : State) : (setLenIn n s).host = s.host := rfl

@[simp] theorem setOutIdx_status (i : Nat) (s : State) : (setOutIdx i s).status = s.status := rfl
@[simp] theorem setOutIdx_err (i : Nat) (s : State) : (setOutIdx i s).err = s.err := rfl
@[simp] theorem setOutIdx_cursor (i : Nat) (s : State) : (setOutIdx i s).cursor = s.cursor := rfl
@[simp] theorem setOutIdx_slen (i : Nat) (s : State) : (setOutIdx i s).slen = s.slen := rfl
@[simp] theorem setOutIdx_nrec (i : Nat) (s : State) : (setOutIdx i s).nrec = s.nrec := rfl
@[simp] theorem setOutIdx_out (i : Nat) (s : State) : (setOutIdx i s).out = s.out := rfl
@[simp] theorem setOutIdx_lenIn (i : Nat) (s : State) : (setOutIdx i s).lenIn = s.lenIn := rfl
@[simp] theorem setOutIdx_outIdx (i : Nat) (s : State) : (setOutIdx i s).outIdx = i := rfl
@[simp] theorem setOutIdx_buf (i : Nat) (s : State) : (setOutIdx i s).buf = s.buf := rfl
@[simp] theorem setOutIdx_host (i : Nat) (s : State) : (setOutIdx i s).host = s.host := rfl

@[simp] theorem landByte_status (a : Nat) (b : Byte) (s : State) : (landByte a b s).status = s.status := rfl
@[simp] theorem landByte_err (a : Nat) (b : Byte) (s : State) : (landByte a b s).err = s.err := rfl
@[simp] theorem landByte_cursor (a : Nat) (b : Byte) (s : State) : (landByte a b s).cursor = s.cursor := rfl
@[simp] theorem landByte_slen (a : Nat) (b : Byte) (s : State) : (landByte a b s).slen = s.slen := rfl
@[simp] theorem landByte_nrec (a : Nat) (b : Byte) (s : State) : (landByte a b s).nrec = s.nrec := rfl
@[simp] theorem landByte_out (a : Nat) (b : Byte) (s : State) : (landByte a b s).out = s.out := rfl
@[simp] theorem landByte_lenIn (a : Nat) (b : Byte) (s : State) : (landByte a b s).lenIn = s.lenIn := rfl
@[simp] theorem landByte_outIdx (a : Nat) (b : Byte) (s : State) : (landByte a b s).outIdx = s.outIdx := rfl
@[simp] theorem landByte_buf (a : Nat) (b : Byte) (s : State) : (landByte a b s).buf = s.buf.write a b := rfl
@[simp] theorem landByte_host (a : Nat) (b : Byte) (s : State) : (landByte a b s).host = s.host := rfl

end Sys2Proof.Machine
end

