-- ==== Sys2Proof/Laws/Engine.lean ====
section
/-! SUPPORT. What one step can do, said once: the fetch by cases, the decode step by cases, and the inversion of step. -/

namespace Sys2Proof.Machine

/-- The record of a decoded instruction. -/
def recordOf (i : Instr) : Record :=
  match i with
  | .movBD0 mod reg rm => moveRecord false false mod reg rm
  | .movWD0 mod reg rm => moveRecord false true mod reg rm
  | .movBD1 mod reg rm => moveRecord true false mod reg rm
  | .movWD1 mod reg rm => moveRecord true true mod reg rm

/-- Every instruction answers a next state: its record retired. -/
theorem exec_eq (i : Instr) (s : State) : exec i s = .next (retire (recordOf i) 2 s) := by
  cases i <;> rfl

theorem fetch_past {s : State} (h : s.slen ≤ s.cursor) : fetch s = some [] := by
  simp [fetch, fetchAddrs, fetchOffsets, h, Memory.readAll]

theorem fetch_unplaced {s : State} (h : s.cursor < s.slen) (h0 : s.buf.read s.cursor = none) : fetch s = none := by
  simp [fetch, fetchAddrs, fetchOffsets, Nat.not_le.mpr h, h0, Memory.readAll]

/-- Only b0 is read when its class is not matched, or when it is the buffer's last byte. -/
theorem fetch_one {s : State} {b0 : Byte} (h : s.cursor < s.slen) (h0 : s.buf.read s.cursor = some b0)
    (hm : ¬ (matchesClass b0 = true ∧ s.cursor + 2 ≤ s.slen)) : fetch s = some [b0] := by
  simp only [fetch, fetchAddrs, fetchOffsets, Nat.not_le.mpr h, h0, if_neg hm, if_false, Memory.readAll, Option.map_some]

theorem fetch_two {s : State} {b0 : Byte} (h0 : s.buf.read s.cursor = some b0)
    (hm : matchesClass b0 = true) (h2 : s.cursor + 2 ≤ s.slen) :
    fetch s = (s.buf.read (s.cursor + 1)).map fun b1 => [b0, b1] := by
  have h : ¬ s.slen ≤ s.cursor := by omega
  simp only [fetch, fetchAddrs, fetchOffsets, h, h0, hm, h2, and_self, if_true, if_false, Memory.readAll]
  cases s.buf.read (s.cursor + 1) <;> rfl

/-- Everything a decode step can answer, with the condition of each answer. -/
theorem decodeStep_cases (s : State) :
    (∃ e, decodeStep s = .next (failPass e s) ∧
      ((s.slen ≤ s.cursor ∧ e = .truncated) ∨
       (∃ b0, s.cursor < s.slen ∧ s.buf.read s.cursor = some b0 ∧ ¬ matchesClass b0 = true ∧ e = .unknownOpcode) ∨
       (∃ b0, s.cursor < s.slen ∧ s.buf.read s.cursor = some b0 ∧ matchesClass b0 = true ∧
          s.slen < s.cursor + 2 ∧ e = .truncated))) ∨
    (∃ b0 b1, s.cursor + 2 ≤ s.slen ∧ s.buf.read s.cursor = some b0 ∧ s.buf.read (s.cursor + 1) = some b1 ∧
      matchesClass b0 = true ∧ decodeStep s = .next (retire (recordOf (instrOf b0 b1)) 2 s)) ∨
    (decodeStep s = .fault .bufferByteNotPlaced ∧ s.cursor < s.slen ∧
      (s.buf.read s.cursor = none ∨
       ∃ b0, s.buf.read s.cursor = some b0 ∧ matchesClass b0 = true ∧ s.cursor + 2 ≤ s.slen ∧
         s.buf.read (s.cursor + 1) = none)) := by
  by_cases hc : s.slen ≤ s.cursor
  · exact .inl ⟨.truncated, by simp [decodeStep, fetch_past hc, decode_nil], .inl ⟨hc, rfl⟩⟩
  · have hlt : s.cursor < s.slen := by omega
    cases h0 : s.buf.read s.cursor with
    | none => exact .inr (.inr ⟨by simp [decodeStep, fetch_unplaced hlt h0], hlt, .inl rfl⟩)
    | some b0 =>
      by_cases hm : matchesClass b0 = true
      · by_cases h2 : s.cursor + 2 ≤ s.slen
        · have hf := fetch_two h0 hm h2
          cases h1 : s.buf.read (s.cursor + 1) with
          | none =>
            refine .inr (.inr ⟨?_, hlt, .inr ⟨b0, rfl, hm, h2, rfl⟩⟩)
            simp [decodeStep, hf, h1]
          | some b1 =>
            refine .inr (.inl ⟨b0, b1, h2, rfl, rfl, hm, ?_⟩)
            simp [decodeStep, hf, h1, decode_pair b1 [] hm, exec_eq]
        · refine .inl ⟨.truncated, ?_, .inr (.inr ⟨b0, hlt, rfl, hm, by omega, rfl⟩)⟩
          simp [decodeStep, fetch_one hlt h0 (by simp [h2]), decode_lone hm]
      · refine .inl ⟨.unknownOpcode, ?_, .inr (.inl ⟨b0, hlt, rfl, hm, rfl⟩)⟩
        simp [decodeStep, fetch_one hlt h0 (by simp [hm]), decode_unmatched [] hm]

theorem step_of_none {s : State} (h : pendingAction s = none) : step s = engTurn (dropHost s) := by
  simp [step, h]

theorem step_of_some {s : State} {act : HostAction} (h : pendingAction s = some act) :
    step s = hostTurn act (dropHost s) := by
  simp [step, h]

theorem engTurn_busy {s : State} (h : s.status = .busy) :
    engTurn s = if s.cursor = s.slen then .next (completePass s) else decodeStep s := by
  simp [engTurn, h]

theorem engTurn_waits {s : State} (h : s.status ≠ .busy) : engTurn s = .next s := by
  cases hs : s.status <;> simp_all [engTurn]

/-- ENG's step of a running pass whose cursor has not reached the end. -/
theorem step_decodes {s : State} (hb : s.status = .busy) (ht : pendingAction s = none) (hc : s.cursor ≠ s.slen) :
    step s = decodeStep (dropHost s) := by
  rw [step_of_none ht, engTurn_busy (by simpa using hb), if_neg (by simpa using hc)]

theorem startPass_busy {s : State} (h : s.status = .busy) : startPass s = s := by
  simp [startPass, h]

theorem startPass_begins {s : State} (h : s.status ≠ .busy) : startPass s = beginPass s := by
  cases hs : s.status <;> simp_all [startPass]

theorem placeByte_refused {s : State} {a : Nat} (b : Byte) (h : s.status = .busy ∧ a < s.slen) :
    placeByte a b s = .refused .bufferWrittenDuringPass := if_pos h

theorem placeByte_lands {s : State} {a : Nat} (b : Byte) (h : ¬ (s.status = .busy ∧ a < s.slen)) :
    placeByte a b s = .next (landByte a b s) := if_neg h

/-- Everything a step that answers a next state can be. -/
theorem step_next_cases {s t : State} (h : step s = .next t) :
    (pendingAction s = none ∧
      ((s.status ≠ .busy ∧ t = dropHost s) ∨
       (s.status = .busy ∧ s.cursor = s.slen ∧ t = completePass (dropHost s)) ∨
       (s.status = .busy ∧ s.cursor ≠ s.slen ∧ ∃ e, (e = .truncated ∨ e = .unknownOpcode) ∧
          t = failPass e (dropHost s)) ∨
       (s.status = .busy ∧ ∃ b0 b1, s.cursor + 2 ≤ s.slen ∧ s.buf.read s.cursor = some b0 ∧
          s.buf.read (s.cursor + 1) = some b1 ∧ matchesClass b0 = true ∧
          t = retire (recordOf (instrOf b0 b1)) 2 (dropHost s)))) ∨
    (∃ n, pendingAction s = some (.driveLenIn n) ∧ t = setLenIn n (dropHost s)) ∨
    (∃ i, pendingAction s = some (.driveOutIdx i) ∧ t = setOutIdx i (dropHost s)) ∨
    (∃ a b, pendingAction s = some (.placeByte a b) ∧ ¬ (s.status = .busy ∧ a < s.slen) ∧
      t = landByte a b (dropHost s)) ∨
    (pendingAction s = some .start ∧ s.status = .busy ∧ t = dropHost s) ∨
    (pendingAction s = some .start ∧ s.status ≠ .busy ∧ t = beginPass (dropHost s)) ∨
    (pendingAction s = some .reset ∧ t = resetBlock (dropHost s)) := by
  cases hp : pendingAction s with
  | none =>
    refine .inl ⟨rfl, ?_⟩
    rw [step_of_none hp] at h
    by_cases hb : s.status = .busy
    · rw [engTurn_busy (by simpa using hb)] at h
      by_cases hc : s.cursor = s.slen
      · simp only [dropHost_cursor, dropHost_slen, hc, if_true, Host.Outcome.next.injEq] at h
        exact .inr (.inl ⟨hb, hc, h.symm⟩)
      · simp only [dropHost_cursor, dropHost_slen, hc, if_false] at h
        rcases decodeStep_cases (dropHost s) with ⟨e, he, hcase⟩ | ⟨b0, b1, h2, h0, h1, hm, he⟩ | ⟨he, -⟩
        · rw [he, Host.Outcome.next.injEq] at h
          refine .inr (.inr (.inl ⟨hb, hc, e, ?_, h.symm⟩))
          rcases hcase with ⟨-, h⟩ | ⟨_, -, -, -, h⟩ | ⟨_, -, -, -, -, h⟩ <;> simp [h]
        · rw [he, Host.Outcome.next.injEq] at h
          exact .inr (.inr (.inr ⟨hb, b0, b1, by simpa using h2, by simpa using h0, by simpa using h1, hm, h.symm⟩))
        · simp [he] at h
    · rw [engTurn_waits (by simpa using hb), Host.Outcome.next.injEq] at h
      exact .inl ⟨hb, h.symm⟩
  | some act =>
    rw [step_of_some hp] at h
    cases act with
    | driveLenIn n =>
      simp only [hostTurn, Host.Outcome.next.injEq] at h
      exact .inr (.inl ⟨n, rfl, h.symm⟩)
    | driveOutIdx i =>
      simp only [hostTurn, Host.Outcome.next.injEq] at h
      exact .inr (.inr (.inl ⟨i, rfl, h.symm⟩))
    | placeByte a b =>
      simp only [hostTurn] at h
      by_cases hw : s.status = .busy ∧ a < s.slen
      · simp [placeByte_refused (s := dropHost s) b hw] at h
      · rw [placeByte_lands (s := dropHost s) b hw, Host.Outcome.next.injEq] at h
        exact .inr (.inr (.inr (.inl ⟨a, b, rfl, hw, h.symm⟩)))
    | start =>
      simp only [hostTurn, Host.Outcome.next.injEq] at h
      by_cases hb : s.status = .busy
      · rw [startPass_busy (by simpa using hb)] at h
        exact .inr (.inr (.inr (.inr (.inl ⟨rfl, hb, h.symm⟩))))
      · rw [startPass_begins (by simpa using hb)] at h
        exact .inr (.inr (.inr (.inr (.inr (.inl ⟨rfl, hb, h.symm⟩)))))
    | reset =>
      simp only [hostTurn, Host.Outcome.next.injEq] at h
      exact .inr (.inr (.inr (.inr (.inr (.inr ⟨rfl, h.symm⟩)))))

/-- The record of a decoded pair is decode_one's: both registers have the width of W, and MOD, D and W are the bytes'. -/
theorem recordOf_instrOf (b0 b1 : Byte) :
    recordOf (instrOf b0 b1) =
      moveRecord (directionFlag b0) (widthFlag b0) (modField b1)
        (rtab (groupOf (regField b1)) (altOf (regField b1)) (widthFlag b0))
        (rtab (groupOf (rmField b1)) (altOf (rmField b1)) (widthFlag b0)) := by
  unfold instrOf
  cases directionFlag b0 <;> cases widthFlag b0 <;> rfl

end Sys2Proof.Machine
end

