-- ==== Sys2Proof/Laws/Pass.lean ====
section
/-! SUPPORT. The spec's pure functions: decode_one by cases, and the loop of decode_all with its fuel accounted for. -/

namespace Sys2Proof.Machine

theorem decodeOne_past {slen c : Nat} (mem : Nat → Byte) (h : slen ≤ c) : decodeOne slen mem c = .error .truncated := by
  simp [decodeOne, h]

theorem decodeOne_unmatched {slen c : Nat} {mem : Nat → Byte} (h : c < slen) (hm : ¬ matchesClass (mem c) = true) :
    decodeOne slen mem c = .error .unknownOpcode := by
  simp only [decodeOne, Nat.not_le.mpr h, if_false, classify_of_not_match hm]

theorem decodeOne_lone {slen c : Nat} {mem : Nat → Byte} (h : c < slen) (h2 : slen < c + 2)
    (hm : matchesClass (mem c) = true) : decodeOne slen mem c = .error .truncated := by
  simp only [decodeOne, Nat.not_le.mpr h, if_false, classify_of_match hm, classLength_eq, h2, if_true]

theorem decodeOne_pair {slen c : Nat} {mem : Nat → Byte} (h2 : c + 2 ≤ slen) (hm : matchesClass (mem c) = true) :
    decodeOne slen mem c = .ok (recordOf (instrOf (mem c) (mem (c + 1))), 2) := by
  have h : ¬ slen ≤ c := by omega
  simp only [decodeOne, h, if_false, classify_of_match hm, classLength_eq, Nat.not_lt.mpr h2, operandDecode_eq,
    recordOf_instrOf]
  rfl

/-- A success consumes two bytes that lie in the buffer. -/
theorem decodeOne_ok {slen c n : Nat} {mem : Nat → Byte} {r : Record} (h : decodeOne slen mem c = .ok (r, n)) :
    n = 2 ∧ c + 2 ≤ slen ∧ matchesClass (mem c) = true ∧ r = recordOf (instrOf (mem c) (mem (c + 1))) := by
  by_cases h1 : slen ≤ c
  · simp [decodeOne_past mem h1] at h
  · by_cases hm : matchesClass (mem c) = true
    · by_cases h2 : c + 2 ≤ slen
      · rw [decodeOne_pair h2 hm] at h
        simp only [Except.ok.injEq, Prod.mk.injEq] at h
        exact ⟨h.2.symm, h2, hm, h.1.symm⟩
      · rw [decodeOne_lone (by omega) (by omega) hm] at h; cases h
    · rw [decodeOne_unmatched (by omega) hm] at h; cases h

/-- Two unequal amounts of fuel give the same answer when both cover the bytes that remain. -/
theorem decodeFrom_fuel {len : Nat} {mem : Nat → Byte} (fuel : Nat) :
    ∀ {fuel' c : Nat} {acc : List Record}, len - c < fuel → len - c < fuel' →
      decodeFrom len mem fuel c acc = decodeFrom len mem fuel' c acc := by
  induction fuel with
  | zero => intro _ _ _ h; omega
  | succ fuel ih =>
    intro fuel' c acc h h'
    obtain ⟨k, rfl⟩ : ∃ k, fuel' = k + 1 := ⟨fuel' - 1, by omega⟩
    simp only [decodeFrom]
    split
    · rfl
    · cases hd : decodeOne len mem c with
      | error e => rfl
      | ok p =>
        obtain ⟨r, n⟩ := p
        obtain ⟨rfl, h2, -, -⟩ := decodeOne_ok hd
        exact ih (by omega) (by omega)

/-- The loop's equation, with enough fuel on both sides: one iteration of the while loop of R90. -/
theorem decodeFrom_eq (len c : Nat) (mem : Nat → Byte) (acc : List Record) :
    decodeFrom len mem (len + 1) c acc =
      if c = len then .ok acc
      else match decodeOne len mem c with
        | .error e => .error (e, c)
        | .ok (r, n) => decodeFrom len mem (len + 1) (c + n) (acc ++ [r]) := by
  conv_lhs => simp only [decodeFrom]
  split
  · rfl
  · cases hd : decodeOne len mem c with
    | error e => rfl
    | ok p =>
      obtain ⟨r, n⟩ := p
      obtain ⟨rfl, h2, -, -⟩ := decodeOne_ok hd
      exact decodeFrom_fuel _ (by omega) (by omega)

end Sys2Proof.Machine
end

