-- ==== Sys2Proof/Laws/PerInstr.lean ====
section
/-! SUPPORT. Per-instruction facts about the syntax. TwoBytes: every form is encoded in two bytes, the length its class
fixes (30_encoding.md R53, R54). -/

namespace Sys2Proof.Laws.TwoBytes

def Statement (i : Instr) : Prop := (encode i).length = classLength .registerMove

theorem movBD0 (mod : BitVec 2) (reg rm : RegisterRef) : Statement (.movBD0 mod reg rm) := rfl
theorem movWD0 (mod : BitVec 2) (reg rm : RegisterRef) : Statement (.movWD0 mod reg rm) := rfl
theorem movBD1 (mod : BitVec 2) (reg rm : RegisterRef) : Statement (.movBD1 mod reg rm) := rfl
theorem movWD1 (mod : BitVec 2) (reg rm : RegisterRef) : Statement (.movWD1 mod reg rm) := rfl

end Sys2Proof.Laws.TwoBytes
end

