-- ==== Sys2Proof/Laws/Run.lean ====
section
/-! SUPPORT. Runs of the machine, taken apart and put together. -/

namespace Sys2Proof.Machine

@[simp] theorem run_zero (s : State) : run 0 s = .next s := rfl

theorem run_succ (k : Nat) {s t : State} (h : step s = .next t) : run (k + 1) s = run k t := by
  simp only [run, h]

theorem run_add {m : Nat} {t : State} (k : Nat) : ∀ {s : State}, run k s = .next t → run (k + m) s = run m t := by
  induction k with
  | zero => intro s h; cases h; rw [Nat.zero_add]
  | succ k ih =>
    intro s h
    cases hs : step s with
    | next u =>
      rw [run_succ k hs] at h
      rw [Nat.add_right_comm, run_succ (k + m) hs, ih h]
    | fault f => simp [run, hs] at h
    | refused r => simp [run, hs] at h

end Sys2Proof.Machine
end

