-- ==== Sys2Proof/Tests/Slice0.lean ====
section
/-! SUPPORT. Small tests. The expected values come from spec/95_test_vectors.md (the vector table is named at each test)
or are written out from the encoding of 30_encoding.md R53. After them, for each statement with hypotheses, a state and
operands that meet them together. -/

namespace Sys2Proof.Tests

open Sys2Proof Sys2Proof.Machine

/-! ### Well-formedness: an ill-formed term for each check -/

theorem test_wellFormed_refuses_word_register_in_byte_form :
    ¬ WellFormed (.movBD0 3 .ax .cl) ∧ ¬ WellFormed (.movBD0 3 .cl .sp) ∧
    ¬ WellFormed (.movBD1 3 .di .al) ∧ ¬ WellFormed (.movBD1 3 .al .ax) := by decide

theorem test_wellFormed_refuses_byte_register_in_word_form :
    ¬ WellFormed (.movWD0 3 .ah .cx) ∧ ¬ WellFormed (.movWD0 3 .cx .bl) ∧
    ¬ WellFormed (.movWD1 0 .al .ax) ∧ ¬ WellFormed (.movWD1 0 .ax .bh) := by decide

theorem test_wellFormed_accepts_each_form :
    WellFormed (.movBD0 3 .ah .ch) ∧ WellFormed (.movWD0 3 .bx .cx) ∧
    WellFormed (.movBD1 3 .bh .bh) ∧ WellFormed (.movWD1 0 .ax .si) := by decide

/-! ### Decoding words written out bit by bit: OPC6, D, W, MOD, REG, RM (R53) -/

theorem test_decode_movBD0 : decodeTableWord 16 0b100010_0_0_11_100_101 = some (.movBD0 3 .ah .ch) := by decide

theorem test_decode_movWD0 : decodeTableWord 16 0b100010_0_1_11_011_001 = some (.movWD0 3 .bx .cx) := by decide

theorem test_decode_movBD1 : decodeTableWord 16 0b100010_1_0_10_000_000 = some (.movBD1 2 .al .al) := by decide

theorem test_decode_movWD1 : decodeTableWord 16 0b100010_1_1_00_000_110 = some (.movWD1 0 .ax .si) := by decide

theorem test_encode_movWD0 : encode (.movWD0 3 .bx .cx) = [0x89, 0xD9] := by decide

/-- V-CLS: the rows of the classifier's table. -/
theorem test_classifier_rows :
    [0x88, 0x89, 0x8A, 0x8B].all matchesClass = true ∧
    [0x00, 0x08, 0x84, 0x87, 0x8C, 0xC6, 0xC8, 0xFF].any matchesClass = false := by decide

/-- V-FLG, with the byte 0x8E that fails to classify. -/
theorem test_flags : [0x88, 0x89, 0x8A, 0x8B, 0x8E].map (fun b => (directionFlag b, widthFlag b)) =
    [(false, false), (false, true), (true, false), (true, true), (true, false)] := by decide

/-- The bytes as a buffer function. -/
def bytesAt (bytes : List Byte) (a : Nat) : Byte := bytes.getD a 0

/-- The record word of decode_one at offset `c`, or the failure. -/
def decodedWord (bytes : List Byte) (c : Nat) : Except Failure RecWord :=
  match decodeOne bytes.length (bytesAt bytes) c with
  | .ok (r, _) => .ok (packRecord r)
  | .error e => .error e

/-- V-DEC, the rows that decode. -/
theorem test_decodeOne_records :
    [[0x88, 0xC7], [0x89, 0xC7], [0x8A, 0xC7], [0x8B, 0xC7], [0x88, 0xF8], [0x8B, 0xF8], [0x89, 0xD9], [0x8B, 0xD9],
     [0x8B, 0xCB], [0x88, 0xE5], [0x8A, 0xE5], [0x89, 0xE5], [0x8B, 0xE5], [0x89, 0xC0], [0x88, 0xED], [0x8A, 0xFF],
     [0x8B, 0xFF], [0x89, 0x00], [0x8B, 0x06], [0x88, 0x40], [0x8A, 0x80]].map (decodedWord · 0) =
    [.ok 0xC70, .ok 0xDF8, .ok 0xE07, .ok 0xF8F, .ok 0xC07, .ok 0xFF8, .ok 0xD9B, .ok 0xFB9,
     .ok 0xF9B, .ok 0xC54, .ok 0xE45, .ok 0xDDC, .ok 0xFCD, .ok 0xD88, .ok 0xC55, .ok 0xE77,
     .ok 0xFFF, .ok 0x188, .ok 0x38E, .ok 0x400, .ok 0xA00] := by decide

/-- V-DEC, the rows that fail. -/
theorem test_decodeOne_failures :
    decodedWord [] 0 = .error .truncated ∧ decodedWord [0x89] 0 = .error .truncated ∧
    decodedWord [0x8C] 0 = .error .unknownOpcode ∧ decodedWord [0x87, 0xD9] 0 = .error .unknownOpcode ∧
    decodedWord [0x89, 0xD9] 2 = .error .truncated ∧ decodedWord [0x89, 0xD9, 0x8B] 2 = .error .truncated ∧
    decodedWord [0x89, 0xD9] 1 = .error .unknownOpcode := by decide

/-- V-ALL: whole buffers, with the failing offset. -/
theorem test_decodePass_rows :
    (decodePass 0 (bytesAt [])).map List.length = .ok 0 ∧
    (decodePass 4 (bytesAt [0x89, 0xD9, 0x8B, 0xCB])).map (·.map packRecord) = .ok [0xD9B, 0xF9B] ∧
    (decodePass 3 (bytesAt [0x89, 0xD9, 0x88])).map List.length = .error (.truncated, 2) ∧
    (decodePass 5 (bytesAt [0x89, 0xD9, 0x8C, 0xD9, 0x89])).map List.length = .error (.unknownOpcode, 2) := by decide

/-- V-TXT. -/
theorem test_render : render { destination := .cx, source := .bx, mod := 3, d := true, w := true } = "MOV CX,BX" := by
  decide

/-! ### One step. The buffer is V-ENG's, `89 D9 88` -/

/-- The buffer of V-ENG. -/
def vEngBuf : Memory := [(0, 0x89), (1, 0xD9), (2, 0x88)]

/-- After START with LEN_IN = 3 (V-ENG, second row). -/
def started : State := { State.reset with status := .busy, slen := 3, lenIn := 3, buf := vEngBuf }

/-- The record of `89 D9`. -/
def movCxBx : Record := { destination := .cx, source := .bx, mod := 3, d := false, w := true }

/-- After its first decode step (V-ENG, third row). -/
def decodedOne : State := { started with cursor := 2, nrec := 1, out := [movCxBx] }

/-- The same pass with LEN_IN = 2, after its decode step. -/
def atEnd : State := { decodedOne with slen := 2, lenIn := 2 }

/-- `s` where the host's next action is `act`. -/
def withAction (act : HostAction) (s : State) : State := { s with host := [some act] }

/-- The outcome is a next state with this property. -/
def nextHas (o : Host.Outcome State Fault Refusal) (p : State → Bool) : Bool :=
  match o with
  | .next t => p t
  | .fault _ => false
  | .refused _ => false

/-- STATUS, ERR, CURSOR, SLEN, NREC as codes, and OUT as words. -/
def registers (s : State) : List Nat × List RecWord :=
  ([(statusCode s.status).toNat, (errCode s.err).toNat, s.cursor, s.slen, s.nrec], s.out.map packRecord)

/-- The record word that the step of a fetched word appends. -/
def appends (w : Nat) (rec : RecWord) : Bool :=
  nextHas (step (State.reset.withFetchWord 16 w)) (fun t => registers t == ([1, 0, 2, 2, 1], [rec]))

theorem test_step_movBD0 : appends 0x88E5 0xC54 = true := by decide
theorem test_step_movWD0 : appends 0x89D9 0xD9B = true := by decide
theorem test_step_movBD1 : appends 0x8AE5 0xE45 = true := by decide
theorem test_step_movWD1 : appends 0x8BE5 0xFCD = true := by decide
theorem test_step_movBD0_mod : appends 0x8840 0x400 = true := by decide
theorem test_step_movWD0_same : appends 0x89C0 0xD88 = true := by decide
theorem test_step_movBD1_mod : appends 0x8A80 0xA00 = true := by decide
theorem test_step_movWD1_mod : appends 0x8B06 0x38E = true := by decide

/-- A word loaded while a pass runs goes where the cursor is. -/
theorem test_fetchWord_while_busy :
    nextHas (step (withAction .reset atEnd |>.withFetchWord 16 0x8BCB))
      (fun t => registers t == ([1, 0, 4, 4, 2], [0xD9B, 0xF9B])) = true := by decide

theorem test_step_decode : nextHas (step started) (fun t => registers t == ([1, 0, 2, 3, 1], [0xD9B])) = true := by decide

theorem test_step_start_while_busy :
    nextHas (step (withAction .start decodedOne)) (fun t => registers t == ([1, 0, 2, 3, 1], [0xD9B])) = true := by decide

theorem test_step_truncated : nextHas (step decodedOne) (fun t => registers t == ([3, 1, 2, 3, 0], [])) = true := by decide

theorem test_step_start :
    nextHas (step (withAction .start { decodedOne with status := .error, err := .truncated, out := [], nrec := 0, lenIn := 2 }))
      (fun t => registers t == ([1, 0, 0, 2, 0], [])) = true := by decide

theorem test_step_complete : nextHas (step atEnd) (fun t => registers t == ([2, 0, 2, 2, 1], [0xD9B])) = true := by decide

theorem test_step_reset :
    nextHas (step (withAction .reset decodedOne)) (fun t => registers t == ([0, 0, 0, 0, 0], []) && t.buf == vEngBuf) = true := by
  decide

/-- V-ALL row `FF 88`: UnknownOpcode at offset 0. -/
theorem test_step_unknownOpcode :
    nextHas (step { started with slen := 2, buf := [(0, 0xFF), (1, 0x88)] })
      (fun t => registers t == ([3, 2, 0, 2, 0], [])) = true := by decide

/-- V-DEC, on DEC's ports. -/
theorem test_dec_ports :
    dec 0x89 0xD9 2 = { ok := true, errc := 0, nbytes := 2, isClass := true, d := false, w := true, mod := 3, dst := 9, src := 11 } ∧
    dec 0x89 0xD9 1 = { ok := false, errc := 1, nbytes := 0, isClass := true, d := false, w := true, mod := 0, dst := 0, src := 0 } ∧
    dec 0x8E 0xD9 2 = { ok := false, errc := 2, nbytes := 0, isClass := false, d := true, w := false, mod := 0, dst := 0, src := 0 } ∧
    dec 0x89 0xD9 0 = { ok := false, errc := 1, nbytes := 0, isClass := false, d := false, w := false, mod := 0, dst := 0, src := 0 } := by
  decide

/-! ### Witnesses: a state and operands that meet a statement's hypotheses together -/

/-- V-ENG's bytes as a function. -/
def vEng : Nat → Byte := bytesAt [0x89, 0xD9, 0x88]

/-- The state of a pass over two bytes, at its start. -/
def passOver (b0 b1 : Byte) : State := { started with slen := 2, lenIn := 2, buf := [(0, b0), (1, b1)] }

/-- The state of a pass whose buffer is one byte. -/
def loneByte (b0 : Byte) : State := { started with slen := 1, lenIn := 1, buf := [(0, b0)] }

theorem witness_DecodeOfEncode : WellFormed (.movBD1 2 .bh .al) := by decide

theorem witness_DecodedBytes : decode [0x8A, 0xB8, 0x89] = .ok (.movBD1 2 .bh .al, [0x89]) := by decide

/-- Both neighbours of the accepted range, and both ends of the byte. -/
theorem witness_OpcodeMap : ∀ b0 : Byte, b0 = 0x87 ∨ b0 = 0x8C ∨ b0 = 0x00 ∨ b0 = 0xFF →
    b0 ≠ 0x88 ∧ b0 ≠ 0x89 ∧ b0 ≠ 0x8A ∧ b0 ≠ 0x8B := by decide

theorem witness_RegisterTable : rtab 3 true true = .di ∧ rtab 0 false false = .al := by decide

theorem witness_UnknownRegisterGroup :
    decodedOne.err ≠ .unknownRegisterGroup ∧ nextHas (step decodedOne) (fun t => t.err == .truncated) = true := by decide

theorem witness_ModIsKept :
    bytesAt [0x8B, 0xC6] 0 = bytesAt [0x8B, 0x06] 0 ∧
    bytesAt [0x8B, 0xC6] 1 = 0b11#2 ++ (bytesAt [0x8B, 0x06] 1).extractLsb' 0 6 ∧
    decodedWord [0x8B, 0x06] 0 = .ok 0x38E := by decide

theorem witness_DirectionFlag :
    decodeOne 2 (bytesAt [0x8A, 0xE5]) 0 = .ok ({ destination := .ah, source := .ch, mod := 3, d := true, w := false }, 2) ∧
    decodeOne 2 (bytesAt [0x88, 0xE5]) 0 = .ok ({ destination := .ch, source := .ah, mod := 3, d := false, w := false }, 2) ∧
    operandDecode 0xE5 false = .ok (.ah, .ch) := by decide

theorem witness_SharedWidth :
    decodeOne 2 (bytesAt [0x89, 0xE5]) 0 = .ok ({ destination := .bp, source := .sp, mod := 3, d := false, w := true }, 2) ∧
    decodeOne 2 (bytesAt [0x88, 0xED]) 0 = .ok ({ destination := .ch, source := .ch, mod := 3, d := false, w := false }, 2) ∧
    regWidth .bp = 16 ∧ regWidth .ch = 8 := by decide

/-- Each check of decode_one at its boundary: slen = c, a lone unmatched byte, a lone matched byte, exactly two bytes. -/
theorem witness_DecodeOneChecks :
    (2 ≤ 2) ∧ (matchesClass 0x8C = false ∧ 0 < 1) ∧ (matchesClass 0x8B = true ∧ 0 < 1 ∧ 1 < 0 + 2) ∧
    (matchesClass 0x88 = true ∧ 0 + 2 ≤ 2) := by decide

/-- For each of the four leading bytes both clauses: exactly two bytes left, and one. -/
theorem witness_MoveResults : [0x88, 0x89, 0x8A, 0x8B].all (fun b0 : Byte =>
    decide ((passOver b0 0xE5).status = .busy ∧ EngTurn (passOver b0 0xE5) ∧ (passOver b0 0xE5).cursor ≠ (passOver b0 0xE5).slen ∧
      (passOver b0 0xE5).buf.read 0 = some b0 ∧ (passOver b0 0xE5).cursor + 2 = (passOver b0 0xE5).slen ∧
      (passOver b0 0xE5).buf.read 1 = some 0xE5 ∧
      (loneByte b0).status = .busy ∧ EngTurn (loneByte b0) ∧ (loneByte b0).cursor ≠ (loneByte b0).slen ∧
      (loneByte b0).buf.read 0 = some b0 ∧ (loneByte b0).slen < (loneByte b0).cursor + 2)) = true := by decide

theorem witness_Frame : nextHas (exec (.movBD0 3 .ah .ch) decodedOne) (fun t => t.nrec == 2) = true := by decide

theorem witness_StepRuns :
    started.status = .busy ∧ EngTurn started ∧ started.cursor + 2 ≤ started.slen ∧ started.buf.read 0 = some 0x89 ∧
    started.buf.read 1 = some 0xD9 ∧ decode [0x89, 0xD9] = .ok (.movWD0 3 .bx .cx, []) := by decide

theorem started_placed : Placed started started.slen vEng := by unfold Placed; decide

theorem witness_DecodeStep :
    started.status = .busy ∧ EngTurn started ∧ started.cursor ≠ started.slen ∧
    decodeOne started.slen vEng started.cursor = .ok (movCxBx, 2) := by decide

theorem decodedOne_placed : Placed decodedOne decodedOne.slen vEng := by unfold Placed; decide

theorem witness_ErrorStep :
    decodedOne.status = .busy ∧ EngTurn decodedOne ∧ decodedOne.cursor ≠ decodedOne.slen ∧
    decodeOne decodedOne.slen vEng decodedOne.cursor = .error .truncated ∧
    nextHas (step decodedOne) (fun _ => true) = true := by decide

theorem witness_CompletionStep : atEnd.status = .busy ∧ EngTurn atEnd ∧ atEnd.cursor = atEnd.slen := by decide

theorem witness_Start :
    pendingAction (withAction .start State.reset) = some .start ∧ (withAction .start State.reset).status ≠ .busy ∧
    pendingAction (withAction .start started) = some .start ∧ (withAction .start started).status = .busy := by decide

theorem witness_Reset : pendingAction (withAction .reset decodedOne) = some .reset := by decide

theorem witness_EngineWaits : State.reset.status ≠ .busy ∧ EngTurn State.reset := by decide

/-- A state in ERROR. -/
def failed : State := { decodedOne with status := .error, err := .truncated, out := [], nrec := 0 }

theorem witness_OnlyStartOrReset :
    failed.status = .error ∧ nextHas (step failed) (fun t => t.status == .error) = true ∧
    nextHas (step (withAction .start failed)) (fun t => t.status == .busy) = true ∧
    nextHas (step (withAction .reset failed)) (fun t => t.status == .idle) = true := by decide

theorem witness_LenIn :
    pendingAction (withAction (.driveLenIn 9) decodedOne) = some (.driveLenIn 9) ∧ EngTurn decodedOne ∧
    nextHas (step decodedOne) (fun _ => true) = true := by decide

/-- The first offset past the pass, and an ignored START. -/
theorem witness_HostActions :
    decodedOne.status = .busy ∧ pendingAction (withAction (.placeByte 3 0) decodedOne) = some (.placeByte 3 0) ∧
    decodedOne.slen ≤ 3 ∧ pendingAction (withAction .start decodedOne) = some .start := by decide

theorem witness_Cursor :
    nextHas (step started) (fun t => t.cursor == 2) = true ∧
    nextHas (step (withAction .start failed)) (fun t => t.cursor == 0 && failed.cursor == 2) = true ∧
    nextHas (step (withAction .reset failed)) (fun t => t.cursor == 0) = true := by decide

/-- Two reads, one read of the last byte, one read of an unmatched byte, none past the end. -/
theorem witness_Fetch :
    fetchAddrs started = [0, 1] ∧ fetchAddrs decodedOne = [2] ∧ fetchAddrs (passOver 0x8C 0) = [0] ∧
    fetchAddrs atEnd = [] := by decide

theorem witness_OnlyTheHostWrites :
    nextHas (step started) (fun _ => true) = true ∧
    nextHas (step (withAction (.placeByte 3 7) started)) (fun t => t.buf.read 3 == some 7) = true := by decide

theorem witness_PlacedByte :
    pendingAction (withAction (.placeByte 3 7) started) = some (.placeByte 3 7) ∧ (started.status = .busy → started.slen ≤ 3) ∧
    pendingAction (withAction (.placeByte 0 7) failed) = some (.placeByte 0 7) ∧ (failed.status = .busy → failed.slen ≤ 0) ∧
    started.buf.wf := by decide

/-- The pass's last offset. -/
theorem witness_WriteDuringPass :
    started.status = .busy ∧ pendingAction (withAction (.placeByte 2 7) started) = some (.placeByte 2 7) ∧ 2 < started.slen := by
  decide

theorem witness_Fault :
    let s := { started with buf := [(0, 0x89)] }
    s.status = .busy ∧ EngTurn s ∧ s.cursor ≠ s.slen ∧ 1 ∈ fetchAddrs s ∧ s.buf.read 1 = none := by decide

theorem witness_TwoBytesOnly :
    let m : Memory := [(0, 0x89), (1, 0xD9)]
    EngTurn started ∧ m.read started.cursor = started.buf.read started.cursor ∧
    m.read (started.cursor + 1) = started.buf.read (started.cursor + 1) ∧ m ≠ started.buf ∧
    nextHas (step started) (fun _ => true) = true := by decide

theorem decodedOne_inv : Inv decodedOne :=
  ⟨by decide, by decide, by decide, by decide, by decide, by decide, by decide, by decide, by decide, by decide, by decide⟩

theorem decodedOne_outIsPrefix : OutIsPrefix decodedOne := by unfold OutIsPrefix; decide

theorem witness_Invariant :
    Inv decodedOne ∧ OutIsPrefix decodedOne ∧ nextHas (step decodedOne) (fun _ => true) = true :=
  ⟨decodedOne_inv, decodedOne_outIsPrefix, by decide⟩

/-- The smallest instance that takes the pass: MAX_LEN = 3, ADDR_W = 2. -/
def instance3 : Config.Params := { maxLen := 3, addrW := 2, fits := by decide }

theorem witness_Instance : Inv decodedOne ∧ WithinInstance instance3 decodedOne :=
  ⟨decodedOne_inv, by decide, by decide, fun _ h => nomatch h⟩

/-- A pass that fails at offset 2, after one instruction that decodes (V-ALL), and another buffer that agrees below 4. -/
theorem witness_BytesAfter :
    2 * 0 < 2 ∧ decodePass 5 (bytesAt [0x89, 0xD9, 0x8C, 0xD9, 0x89]) = .error (.unknownOpcode, 2) ∧
    (∀ a, a < 2 + 2 → bytesAt [0x89, 0xD9, 0x8C, 0xD9, 0xFF] a = bytesAt [0x89, 0xD9, 0x8C, 0xD9, 0x89] a) := by decide

/-- A placed buffer before its START. -/
def ready (n : Nat) : State := { State.reset with lenIn := n, buf := vEngBuf, host := [some .start] }

theorem ready_placed : Placed (ready 2) 2 vEng ∧ Placed (ready 3) 3 vEng := by unfold Placed; decide

/-- The hypotheses of both pass statements: two bytes decode, three fail at offset 2; and the empty buffer. -/
theorem witness_Pass :
    (ready 2).status ≠ .busy ∧ (ready 2).host = [some .start] ∧ decodeAll 2 vEng = .ok [movCxBx] ∧
    decodePass 3 vEng = .error (.truncated, 2) ∧ decodeAll 0 vEng = .ok [] := by decide

theorem witness_RecordWord : Inv decodedOne ∧ movCxBx ∈ decodedOne.out := ⟨decodedOne_inv, by decide⟩

theorem witness_OutRec :
    Inv decodedOne ∧ decodedOne.out[0]? = some movCxBx ∧ decodedOne.nrec ≤ 1 := ⟨decodedOne_inv, by decide, by decide⟩

theorem witness_Render :
    ({ movCxBx with mod := 0, d := true } : Record).destination = movCxBx.destination ∧
    ({ movCxBx with mod := 0, d := true } : Record).source = movCxBx.source := by decide

theorem witness_Dec :
    started.cursor ≤ started.slen ∧ decodeOne started.slen vEng started.cursor = .ok (movCxBx, 2) ∧
    decodeOne decodedOne.slen vEng decodedOne.cursor = .error .truncated ∧ started.cursor < started.slen ∧
    atEnd.cursor = atEnd.slen := by decide

end Sys2Proof.Tests
end

section
/-! The register fields of a record's word, and the width W that a decoded record's two registers share
(10_state.md R20, R23). -/

namespace Sys2Proof.Machine

/-- DST stands in bits 7:4 of the word (R20). -/
@[simp] theorem packRecord_dst (r : Record) : (packRecord r).extractLsb' 4 4 = regCode r.destination := by
  unfold packRecord
  rw [BitVec.extractLsb'_append_eq_of_le (by decide), BitVec.extractLsb'_append_eq_right]

/-- SRC stands in bits 3:0 of the word (R20). -/
@[simp] theorem packRecord_src (r : Record) : (packRecord r).extractLsb' 0 4 = regCode r.source :=
  BitVec.extractLsb'_append_eq_right

theorem regWidth_eq (r : RegisterRef) : regWidth r = if isWordReg r then 16 else 8 := rfl

/-- Whichever roles the direction flag gives them, two registers of width `w` make a record of width `w` (R23, R88). -/
theorem moveRecord_width {w : Bool} {first second : RegisterRef} (d : Bool) (mod : BitVec 2)
    (h1 : isWordReg first = w) (h2 : isWordReg second = w) :
    isWordReg (moveRecord d w mod first second).destination = w ∧
    isWordReg (moveRecord d w mod first second).source = w := by
  cases d
  · exact ⟨h2, h1⟩
  · exact ⟨h1, h2⟩

/-- A record that decode_one answers holds W, and W is the width of both its registers (R23, R64). -/
theorem decodeOne_width {slen c n : Nat} {mem : Nat → Byte} {r : Record} (h : decodeOne slen mem c = .ok (r, n)) :
    r.w = widthFlag (mem c) ∧ isWordReg r.destination = widthFlag (mem c) ∧ isWordReg r.source = widthFlag (mem c) := by
  obtain ⟨-, -, -, rfl⟩ := decodeOne_ok h
  rw [recordOf_instrOf]
  exact ⟨rfl, moveRecord_width _ _ (isWordReg_rtab _ _ _) (isWordReg_rtab _ _ _)⟩

/-- Settles O11: RTAB answers both registers at the one width flag, and bit 3 of a register's code is that width. -/
theorem bothRegistersHaveTheSharedWidth : Obligations.BothRegistersHaveTheSharedWidth := by
  intro slen c mem r n h
  obtain ⟨hw, hdst, hsrc⟩ := decodeOne_width h
  refine ⟨?_, ?_, hw, ?_, ?_⟩
  · rw [regWidth_eq, regWidth_eq, hdst, hsrc]
  · rw [regWidth_eq, hdst]
  · calc ((packRecord r).extractLsb' 4 4).getLsbD 3
      _ = isWordReg r.destination := by rw [packRecord_dst, isWordReg]
      _ = r.w := hdst.trans hw.symm
  · calc ((packRecord r).extractLsb' 0 4).getLsbD 3
      _ = isWordReg r.source := by rw [packRecord_src, isWordReg]
      _ = r.w := hsrc.trans hw.symm

end Sys2Proof.Machine
end

section
/-! The buffer: the offsets a decode step reads (20_memory.md R41), and that OUT holds, while a pass
runs, the records of the bytes decoded so far, in order (R50). -/

namespace Sys2Proof.Machine

/-- Everything the offsets of a decode step can be: none past the end, b0's alone, or b0's and b1's (R41, R42). -/
theorem fetchAddrs_cases (s : State) :
    (s.slen ≤ s.cursor ∧ fetchAddrs s = []) ∨
    (s.cursor < s.slen ∧ fetchAddrs s = [s.cursor]) ∨
    (s.cursor + 2 ≤ s.slen ∧ fetchAddrs s = [s.cursor, s.cursor + 1] ∧
      ∃ b0, s.buf.read s.cursor = some b0 ∧ matchesClass b0 = true) := by
  by_cases hc : s.slen ≤ s.cursor
  · exact .inl ⟨hc, if_pos hc⟩
  · have hlt : s.cursor < s.slen := Nat.not_le.mp hc
    cases h0 : s.buf.read s.cursor with
    | none => exact .inr (.inl ⟨hlt, by simp [fetchAddrs, fetchOffsets, hc, h0]⟩)
    | some b0 =>
      by_cases hm : matchesClass b0 = true ∧ s.cursor + 2 ≤ s.slen
      · exact .inr (.inr ⟨hm.2, by simp [fetchAddrs, fetchOffsets, hc, h0, hm], b0, rfl, hm.1⟩)
      · exact .inr (.inl ⟨hlt, by simp only [fetchAddrs, fetchOffsets, hc, h0, hm, if_false]⟩)

/-- Settles O33: b1 is read only behind two remaining bytes, so its offset too is below SLEN. -/
theorem fetchReadsOnlyInsideTheBuffer : Obligations.FetchReadsOnlyInsideTheBuffer := by
  intro s
  rcases fetchAddrs_cases s with ⟨hc, hf⟩ | ⟨hc, hf⟩ | ⟨h2, hf, hb0⟩ <;> rw [hf]
  · exact ⟨by simp, fun h => absurd hc (Nat.not_le.mpr h), fun _ => rfl⟩
  · exact ⟨by simpa using hc, fun _ => .inl rfl, fun h => absurd h (Nat.not_le.mpr hc)⟩
  · refine ⟨fun a ha => ?_, fun _ => .inr ⟨rfl, h2, hb0⟩, fun h => by omega⟩
    have ha : a = s.cursor ∨ a = s.cursor + 1 := by simpa using ha
    omega

/-- The record at an offset depends on the two bytes there only (R89). -/
theorem recordAt_congr {m m' : Memory} {c : Nat} (h0 : m'.read c = m.read c)
    (h1 : m'.read (c + 1) = m.read (c + 1)) : recordAt m' c = recordAt m c := by
  simp only [recordAt, h0, h1]

/-- Two placed bytes whose first is matched hold the record of the instruction they make. -/
theorem recordAt_pair {m : Memory} {c : Nat} {b0 b1 : Byte} (h0 : m.read c = some b0)
    (h1 : m.read (c + 1) = some b1) (hm : matchesClass b0 = true) :
    recordAt m c = some (recordOf (instrOf b0 b1)) := by
  have hd := decodeOne_pair (slen := 2) (c := 0) (mem := fun a => if a = 0 then b0 else b1) (Nat.le_refl 2) hm
  simp only [recordAt, h0, h1, hd]
  rfl

/-- While a pass runs, the records in OUT are those of the bytes before CURSOR (R34). -/
theorem Inv.cursor_eq_of_busy {s : State} (h : Inv s) (hb : s.status = .busy) : s.cursor = 2 * s.out.length := by
  have hn := h.nrec_running (.inl hb)
  have hl := h.nrec_eq_length
  have he := h.cursor_even
  omega

theorem outIsPrefix_of_not_busy {s : State} (h : s.status ≠ .busy) : OutIsPrefix s := fun hb => absurd hb h

theorem outIsPrefix_of_nil {s : State} (h : s.out = []) : OutIsPrefix s := fun _ i hi => by simp [h] at hi

/-- STATUS and OUT kept, and the bytes that OUT's records were decoded from: OutIsPrefix stays. -/
theorem OutIsPrefix.of_frame {s t : State} (h : OutIsPrefix s) (hst : t.status = s.status) (hout : t.out = s.out)
    (hbuf : s.status = .busy → ∀ a, a < 2 * s.out.length → t.buf.read a = s.buf.read a) : OutIsPrefix t := by
  intro hb i hi
  rw [hst] at hb
  rw [hout] at hi ⊢
  have hread := hbuf hb
  exact (recordAt_congr (hread _ (by omega)) (hread _ (by omega))).trans (h hb i hi)

/-- A decode step at the offset just after OUT's records keeps OutIsPrefix with one record more (R50, R93). -/
theorem OutIsPrefix.retire_pair {s : State} {b0 b1 : Byte} (h : OutIsPrefix s) (hc : s.cursor = 2 * s.out.length)
    (h0 : s.buf.read s.cursor = some b0) (h1 : s.buf.read (s.cursor + 1) = some b1)
    (hm : matchesClass b0 = true) : OutIsPrefix (retire (recordOf (instrOf b0 b1)) 2 s) := by
  intro hb i hi
  simp only [retire_out, retire_buf, List.length_append, List.length_singleton] at hi ⊢
  rcases Nat.lt_succ_iff_lt_or_eq.mp hi with hlt | rfl
  · rw [List.getElem?_append_left hlt]
    exact h hb i hlt
  · rw [List.getElem?_concat_length, ← hc]
    exact recordAt_pair h0 h1 hm

/-- Settles O41: a decode step appends the record of the two bytes at CURSOR = 2 * OUT's length, START empties OUT, and
while a pass runs a byte lands only past the bytes already decoded. -/
theorem outStaysTheDecodedPrefix : Obligations.OutStaysTheDecodedPrefix := by
  intro s t hinv hpre hstep
  have hdrop : OutIsPrefix (dropHost s) := hpre
  rcases step_next_cases hstep with
    ⟨-, ⟨-, rfl⟩ | ⟨-, -, rfl⟩ | ⟨-, -, e, -, rfl⟩ | ⟨hb, b0, b1, -, h0, h1, hm, rfl⟩⟩ |
    ⟨n, -, rfl⟩ | ⟨i, -, rfl⟩ | ⟨a, b, -, hland, rfl⟩ | ⟨-, -, rfl⟩ | ⟨-, -, rfl⟩ | ⟨-, rfl⟩
  · exact hdrop
  · exact outIsPrefix_of_not_busy (by simp)
  · exact outIsPrefix_of_not_busy (by simp)
  · exact hdrop.retire_pair (hinv.cursor_eq_of_busy hb) h0 h1 hm
  · exact hdrop
  · exact hdrop
  · refine hpre.of_frame rfl rfl fun hb a' ha' => read_write_other s.buf b ?_
    have hcur := hinv.cursor_eq_of_busy hb
    have hle := hinv.cursor_le
    have ha : ¬ a < s.slen := fun h => hland ⟨hb, h⟩
    omega
  · exact hdrop
  · exact outIsPrefix_of_nil rfl
  · exact outIsPrefix_of_not_busy (by simp)

end Sys2Proof.Machine
end

section
/-! The operand byte and its decoding (30_encoding.md): the register table and its inverse (R57 to R59), the fields REG, RM
and MOD (R60 to R62, R74), and the text of a record (R76 to R78). -/

namespace Sys2Proof.Machine

/-! ### The register table -/

/-- RTAB's identity has the code of its three inputs (R57). -/
theorem regCode_rtab_eq (g : BitVec 2) (a w : Bool) :
    regCode (rtab g a w) = BitVec.ofBool w ++ BitVec.ofBool a ++ g := by
  revert g a w; decide

/-- The identity with a given code: the code's bits 1:0, 2 and 3 are RTAB's inputs (R21). -/
def regOfCode (c : RegCode) : RegisterRef := rtab (c.extractLsb' 0 2) (c.getLsbD 2) (c.getLsbD 3)

theorem regOfCode_regCode (r : RegisterRef) : regOfCode (regCode r) = r := by cases r <;> rfl

theorem regCode_injective : Function.Injective regCode :=
  Function.LeftInverse.injective regOfCode_regCode

/-- A code's three parts can be read back from it (R59). -/
theorem regCode_parts_inj {g g' : BitVec 2} {a a' w w' : Bool}
    (h : BitVec.ofBool w ++ BitVec.ofBool a ++ g = BitVec.ofBool w' ++ BitVec.ofBool a' ++ g') :
    g = g' ∧ a = a' ∧ w = w' := by
  have parts : ∀ (g : BitVec 2) (a w : Bool), (BitVec.ofBool w ++ BitVec.ofBool a ++ g).extractLsb' 0 2 = g ∧
      (BitVec.ofBool w ++ BitVec.ofBool a ++ g).getLsbD 2 = a ∧
      (BitVec.ofBool w ++ BitVec.ofBool a ++ g).getLsbD 3 = w := by decide
  obtain ⟨hg, ha, hw⟩ := parts g a w
  obtain ⟨hg', ha', hw'⟩ := parts g' a' w'
  exact ⟨by rw [← hg, h, hg'], by rw [← ha, h, ha'], by rw [← hw, h, hw']⟩

/-- Settles O5: the code of RTAB's answer tells its inputs, and every identity is RTAB's answer on the bits of its code. -/
theorem registerTableGivesEveryCodeOnce : Obligations.RegisterTableGivesEveryCodeOnce := by
  refine ⟨regCode_rtab_eq, ⟨rfl, rfl, rfl, rfl⟩, fun g g' a a' w w' h => ?_, fun r => ?_, fun r r' h => ?_⟩
  · apply regCode_parts_inj
    rw [← regCode_rtab_eq, ← regCode_rtab_eq, h]
  · exact ⟨_, _, _, regOfCode_regCode r⟩
  · exact regCode_injective h

/-! ### The fields of the operand byte -/

/-- A 3-bit field, widened, is the byte shifted down to it and masked. -/
theorem setWidth_extractLsb'_three (b : Byte) (k : Nat) : (b.extractLsb' k 3).setWidth 8 = (b >>> k) &&& 0b111 := by
  apply BitVec.eq_of_toNat_eq
  have hmask : (b.toNat >>> k) &&& 7 = b.toNat >>> k % 2 ^ 3 := Nat.and_two_pow_sub_one_eq_mod _ 3
  have hlt : b.toNat >>> k % 2 ^ 3 < 2 ^ 8 := by omega
  simpa [hmask] using Nat.mod_eq_of_lt hlt

/-- Settles O6: both fields are read by one shift and the mask 0b111, the shift of RM being 0. -/
theorem regAndRmAreTheFieldsOfTheOperandByte : Obligations.RegAndRmAreTheFieldsOfTheOperandByte := by
  intro b1
  refine ⟨setWidth_extractLsb'_three b1 3, rfl, ?_, rfl⟩
  rw [rmField, setWidth_extractLsb'_three, BitVec.ushiftRight_zero]

/-- The byte with the mode prefix replaced: its low six bits stay (R62). -/
def withMod (mod : BitVec 2) (b1 : Byte) : Byte := mod ++ b1.extractLsb' 0 6

@[simp] theorem modField_withMod (mod : BitVec 2) (b1 : Byte) : modField (withMod mod b1) = mod := by
  unfold modField withMod
  exact BitVec.extractLsb'_append_eq_left

@[simp] theorem regField_withMod (mod : BitVec 2) (b1 : Byte) : regField (withMod mod b1) = regField b1 := by
  unfold regField withMod
  rw [BitVec.extractLsb'_append_eq_of_add_le (by decide), BitVec.extractLsb'_extractLsb'_of_le (by decide)]

@[simp] theorem rmField_withMod (mod : BitVec 2) (b1 : Byte) : rmField (withMod mod b1) = rmField b1 := by
  unfold rmField withMod
  rw [BitVec.extractLsb'_append_eq_of_add_le (by decide), BitVec.extractLsb'_extractLsb'_of_le (by decide)]

/-! ### MOD in a decoded record -/

theorem mod_recordOf_instrOf (b0 b1 : Byte) : (recordOf (instrOf b0 b1)).mod = modField b1 := by
  rw [recordOf_instrOf]; rfl

/-- The mode prefix of the operand byte goes to the record's MOD and nowhere else (R62, R74). -/
theorem recordOf_instrOf_withMod (b0 b1 : Byte) (mod : BitVec 2) :
    recordOf (instrOf b0 (withMod mod b1)) = { recordOf (instrOf b0 b1) with mod := mod } := by
  simp only [recordOf_instrOf, regField_withMod, rmField_withMod, modField_withMod, moveRecord]

/-- decode_one succeeds exactly on two bytes inside the buffer, the first matched (R85). -/
theorem decodeOne_ok_iff {slen c n : Nat} {mem : Nat → Byte} {r : Record} :
    decodeOne slen mem c = .ok (r, n) ↔
      c + 2 ≤ slen ∧ matchesClass (mem c) = true ∧ r = recordOf (instrOf (mem c) (mem (c + 1))) ∧ n = 2 := by
  constructor
  · intro h
    obtain ⟨hn, h2, hm, hr⟩ := decodeOne_ok h
    exact ⟨h2, hm, hr, hn⟩
  · rintro ⟨h2, hm, rfl, rfl⟩
    exact decodeOne_pair h2 hm

/-- A record is another one exactly when the two agree on MOD and, with MOD overwritten, on the rest. -/
theorem Record.eq_iff_mod (r r' : Record) (mod : BitVec 2) :
    r = r' ↔ r.mod = r'.mod ∧ ({ r with mod := mod } : Record) = { r' with mod := mod } := by
  cases r; cases r'
  simp only [Record.mk.injEq, true_and]
  tauto

/-- Settles O9: the conditions of success do not read the operand byte, and its MOD changes the record in MOD only. -/
theorem modIsKeptAndReadByNothingElse : Obligations.ModIsKeptAndReadByNothingElse := by
  intro slen c mem mem' r n h0 h1
  have h1 : mem' (c + 1) = withMod 0b11 (mem (c + 1)) := h1
  rw [decodeOne_ok_iff, decodeOne_ok_iff, h0, h1, recordOf_instrOf_withMod,
    Record.eq_iff_mod r _ 0b11, mod_recordOf_instrOf, modField]
  tauto

/-! ### The text of a record -/

/-- The text depends on the two registers alone (R76). -/
theorem render_congr {r r' : Record} (hd : r'.destination = r.destination) (hs : r'.source = r.source) :
    render r' = render r := by
  rw [render, render, hd, hs]

/-- The form with D = 0 and the form with D = 1 and its fields exchanged name the same two registers (R71, R78). -/
theorem render_moveRecord_exchanged (w : Bool) (mod mod' : BitVec 2) (a b : RegisterRef) :
    render (moveRecord false w mod a b) = render (moveRecord true w mod' b a) :=
  render_congr rfl rfl

/-- Settles O50: render reads a record's two registers and nothing else. -/
theorem renderShowsTheTwoRegistersOnly : Obligations.RenderShowsTheTwoRegistersOnly := by
  refine ⟨fun r => ?_, fun r r' => render_congr, render_moveRecord_exchanged, rfl⟩
  have hmnem : "MOV" ++ " " = "MOV " := rfl
  rw [render, hmnem, String.append_assoc, String.append_assoc]

end Sys2Proof.Machine
end

section
/-! The four register moves (40_register_move.md R80 to R83): one step on the opcode byte of the flags D and W, with the
operand byte in the buffer or beyond its end. -/

namespace Sys2Proof.Machine

/-! ### The opcode byte and the two register fields -/

theorem matchesClass_opcodeByte (d w : Bool) : matchesClass (opcodeByte d w) = true := by
  cases d <;> cases w <;> rfl

@[simp] theorem directionFlag_opcodeByte (d w : Bool) : directionFlag (opcodeByte d w) = d := by
  cases d <;> cases w <;> rfl

@[simp] theorem widthFlag_opcodeByte (d w : Bool) : widthFlag (opcodeByte d w) = w := by
  cases d <;> cases w <;> rfl

/-- The code `{W, alt, group}` that the 3-bit field at bit `k` of the operand byte spells (R21, R63). -/
def fieldCode (w : Bool) (k : Nat) (b1 : Byte) : RegCode :=
  BitVec.ofBool w ++ b1.extractLsb' (k + 2) 1 ++ b1.extractLsb' k 2

/-- RTAB on a field's group and alternate bit answers the register that the field spells. -/
theorem regCode_rtab_field (w : Bool) (k : Nat) (b1 : Byte) :
    regCode (rtab (groupOf (b1.extractLsb' k 3)) (altOf (b1.extractLsb' k 3)) w) = fieldCode w k b1 := by
  calc regCode (rtab (groupOf (b1.extractLsb' k 3)) (altOf (b1.extractLsb' k 3)) w)
    _ = BitVec.ofBool w ++ b1.extractLsb' k 3 := regCode_rtab _ w
    _ = BitVec.ofBool w ++ (b1.extractLsb' (k + 2) 1 ++ b1.extractLsb' k 2) := by
      rw [BitVec.extractLsb'_append_extractLsb'_eq_extractLsb' rfl]
    _ = fieldCode w k b1 := by rw [fieldCode, BitVec.append_assoc, BitVec.cast_eq]

/-- The pair's record: D = 1 makes the field at bit 3 (REG) the destination, D = 0 the field at bit 0 (RM). -/
theorem recordOf_opcodeByte (d w : Bool) (b1 : Byte) :
    let r := recordOf (instrOf (opcodeByte d w) b1)
    regCode r.destination = fieldCode w (if d then 3 else 0) b1 ∧
    regCode r.source = fieldCode w (if d then 0 else 3) b1 ∧
    r.mod = modField b1 ∧ r.d = d ∧ r.w = w := by
  rw [recordOf_instrOf, directionFlag_opcodeByte, widthFlag_opcodeByte]
  have hreg := regCode_rtab_field w 3 b1
  have hrm := regCode_rtab_field w 0 b1
  cases d
  · exact ⟨hrm, hreg, rfl, rfl, rfl⟩
  · exact ⟨hreg, hrm, rfl, rfl, rfl⟩

/-! ### ENG's step at a matched leading byte -/

/-- With the operand byte in the buffer, the step appends the pair's record and consumes both bytes (R93). -/
theorem step_retires {s : State} {b0 b1 : Byte} (hb : s.status = .busy) (ht : EngTurn s)
    (h2 : s.cursor + 2 ≤ s.slen) (h0 : s.buf.read s.cursor = some b0) (h1 : s.buf.read (s.cursor + 1) = some b1)
    (hm : matchesClass b0 = true) : step s = .next (retire (recordOf (instrOf b0 b1)) 2 (dropHost s)) := by
  have hf : fetch (dropHost s) = some [b0, b1] := by
    rw [fetch_two (s := dropHost s) h0 hm h2, dropHost_buf, dropHost_cursor, h1, Option.map_some]
  rw [step_decodes hb ht (by omega)]
  simp only [decodeStep, hf, decode_pair b1 [] hm, exec_eq]

/-- With the operand byte beyond the end, the step takes the failure Truncated (R95, R101). -/
theorem step_truncated {s : State} {b0 : Byte} (hb : s.status = .busy) (ht : EngTurn s) (hc : s.cursor ≠ s.slen)
    (h2 : s.slen < s.cursor + 2) (h0 : s.buf.read s.cursor = some b0) (hm : matchesClass b0 = true) :
    step s = .next (failPass .truncated (dropHost s)) := by
  rw [step_decodes hb ht hc]
  rcases Nat.lt_or_gt_of_ne hc with hlt | hgt
  · have hf : fetch (dropHost s) = some [b0] := fetch_one hlt h0 fun h => absurd h.2 (Nat.not_le.mpr h2)
    simp only [decodeStep, hf, decode_lone hm]
  · have hf : fetch (dropHost s) = some [] := fetch_past hgt.le
    simp only [decodeStep, hf, decode_nil]

/-! ### The four forms -/

/-- R80 to R83 at once: what a step does at the opcode byte of the flags `d` and `w`. -/
theorem step_opcodeByte (d w : Bool) {s : State} (hb : s.status = .busy) (ht : EngTurn s) (hc : s.cursor ≠ s.slen)
    (h0 : s.buf.read s.cursor = some (opcodeByte d w)) :
    (∀ b1 : Byte, s.cursor + 2 ≤ s.slen → s.buf.read (s.cursor + 1) = some b1 →
      ∃ r : Record, step s = .next (retire r 2 (dropHost s)) ∧
        regCode r.destination = fieldCode w (if d then 3 else 0) b1 ∧
        regCode r.source = fieldCode w (if d then 0 else 3) b1 ∧
        r.mod = modField b1 ∧ r.d = d ∧ r.w = w) ∧
    (s.slen < s.cursor + 2 → ∃ t, step s = .next t ∧ t.status = .error ∧ t.err = .truncated) := by
  have hm := matchesClass_opcodeByte d w
  constructor
  · intro b1 h2 h1
    exact ⟨_, step_retires hb ht h2 h0 h1 hm, recordOf_opcodeByte d w b1⟩
  · intro h2
    exact ⟨_, step_truncated hb ht hc h2 h0 hm, failPass_status _ _, failPass_err _ _⟩

/-- Settles O13: 0x88 is the opcode byte of D = 0 and W = 0. -/
theorem movBD0DecodesToTheByteRecord : Obligations.MovBD0DecodesToTheByteRecord :=
  fun _ hb ht hc h0 => step_opcodeByte false false hb ht hc h0

/-- Settles O14: 0x89 is the opcode byte of D = 0 and W = 1. -/
theorem movWD0DecodesToTheWordRecord : Obligations.MovWD0DecodesToTheWordRecord :=
  fun _ hb ht hc h0 => step_opcodeByte false true hb ht hc h0

/-- Settles O15: 0x8A is the opcode byte of D = 1 and W = 0. -/
theorem movBD1DecodesToTheByteRecord : Obligations.MovBD1DecodesToTheByteRecord :=
  fun _ hb ht hc h0 => step_opcodeByte true false hb ht hc h0

/-- Settles O16: 0x8B is the opcode byte of D = 1 and W = 1. -/
theorem movWD1DecodesToTheWordRecord : Obligations.MovWD1DecodesToTheWordRecord :=
  fun _ hb ht hc h0 => step_opcodeByte true true hb ht hc h0

end Sys2Proof.Machine
end

section
/-! The decode engine (41_decode_engine.md): the roles that D gives a pair of registers (R88), ENG's decode and completion
steps (R93, R94), what changes CURSOR (R98), what a decoding reads (R89), and decode_all (R90, R91). -/

namespace Sys2Proof.Machine

/-! ### The record of a decoding -/

/-- A record that decode_one answers is operand_decode's pair in the roles that D gives it (R85, R88). -/
theorem decodeOne_record {slen c n : Nat} {mem : Nat → Byte} {r : Record} {first second : RegisterRef}
    (h : decodeOne slen mem c = .ok (r, n))
    (hpair : operandDecode (mem (c + 1)) (widthFlag (mem c)) = .ok (first, second)) :
    r = moveRecord (directionFlag (mem c)) (widthFlag (mem c)) (modField (mem (c + 1))) first second := by
  obtain ⟨-, -, -, rfl⟩ := decodeOne_ok h
  rw [operandDecode_eq] at hpair
  cases hpair
  exact recordOf_instrOf _ _

/-- Settles O10: the record is the pair in the roles of D, and both its registers have decode_one's shared width. -/
theorem directionFlagOrdersTheTwoRegisters : Obligations.DirectionFlagOrdersTheTwoRegisters := by
  intro slen c mem r n first second h hpair
  obtain ⟨-, hdst, hsrc⟩ := decodeOne_width h
  refine ⟨fun hd => ?_, fun hd => ?_, hdst, hsrc⟩ <;> rw [decodeOne_record h hpair, hd]
  · exact ⟨rfl, rfl⟩
  · exact ⟨rfl, rfl⟩

/-! ### ENG's steps -/

/-- Settles O21: decode_one succeeds on two placed bytes, and these are the ones that the step retires. -/
theorem decodeStepFollowsDecodeOne : Obligations.DecodeStepFollowsDecodeOne := by
  intro s mem r n hb ht _ hplaced h
  obtain ⟨rfl, h2, hm, rfl⟩ := decodeOne_ok h
  exact step_retires hb ht h2 (hplaced _ (by omega)) (hplaced _ (by omega)) hm

/-- Settles O23: at the end of the buffer ENG's turn is the completion step. -/
theorem completionStepEndsThePass : Obligations.CompletionStepEndsThePass := by
  intro s hb ht hc
  have hend : (dropHost s).cursor = (dropHost s).slen := hc
  rw [step_of_none ht, engTurn_busy (s := dropHost s) hb, if_pos hend]
  rfl

/-- Settles O32: of all that a step can be, START and RESET clear CURSOR, a retired record advances it, and every other
transfer keeps it. -/
theorem cursorChangesInThreePlacesOnly : Obligations.CursorChangesInThreePlacesOnly := by
  intro s t hstep hne
  rcases step_next_cases hstep with
    ⟨ht, ⟨-, rfl⟩ | ⟨-, -, rfl⟩ | ⟨-, -, e, -, rfl⟩ | ⟨hb, b0, b1, -, -, -, -, rfl⟩⟩ |
    ⟨n, -, rfl⟩ | ⟨i, -, rfl⟩ | ⟨a, b, -, -, rfl⟩ | ⟨-, -, rfl⟩ | ⟨hp, hb, rfl⟩ | ⟨hp, rfl⟩
  · exact absurd rfl hne
  · exact absurd rfl hne
  · exact absurd rfl hne
  · exact .inr (.inr ⟨ht, hb, rfl, rfl, instrOf b0 b1, hstep.trans (exec_eq _ (dropHost s)).symm⟩)
  · exact absurd rfl hne
  · exact absurd rfl hne
  · exact absurd rfl hne
  · exact absurd rfl hne
  · exact .inl ⟨hp, hb, rfl⟩
  · exact .inr (.inl ⟨hp, rfl⟩)

/-! ### What a decoding reads -/

/-- decode_one reads the bytes at `c` and `c + 1` and no other (R89). -/
theorem decodeOne_congr {slen c : Nat} {mem mem' : Nat → Byte} (h0 : mem' c = mem c)
    (h1 : mem' (c + 1) = mem (c + 1)) : decodeOne slen mem' c = decodeOne slen mem c := by
  simp only [decodeOne, h0, h1]

/-- The fetch reads the buffer at CURSOR and CURSOR + 1 and nowhere else (R41, R89). -/
theorem fetch_congr {s : State} {m : Memory} (h0 : m.read s.cursor = s.buf.read s.cursor)
    (h1 : m.read (s.cursor + 1) = s.buf.read (s.cursor + 1)) : fetch { s with buf := m } = fetch s := by
  have haddrs : fetchAddrs { s with buf := m } = fetchAddrs s := by
    simp only [fetchAddrs, fetchOffsets, h0]
  rw [fetch, fetch, haddrs]
  rcases fetchAddrs_cases s with ⟨-, hf⟩ | ⟨-, hf⟩ | ⟨-, hf, -⟩ <;> rw [hf]
  · rfl
  · simp only [Memory.readAll, h0]
  · simp only [Memory.readAll, h0, h1]

/-- A decode step sees the buffer through its fetch only. -/
theorem decodeStep_of_fetch_eq {s t : State} {m : Memory} (hf : fetch { s with buf := m } = fetch s)
    (h : decodeStep s = .next t) : decodeStep { s with buf := m } = .next { t with buf := m } := by
  rw [decodeStep] at h ⊢
  rw [hf]
  cases hbytes : fetch s with
  | none => simp [hbytes] at h
  | some bytes =>
    cases hd : decode bytes with
    | error e =>
      simp only [hbytes, hd, Host.Outcome.next.injEq] at h ⊢
      rw [← h]; rfl
    | ok p =>
      obtain ⟨i, rest⟩ := p
      simp only [hbytes, hd, exec_eq, Host.Outcome.next.injEq] at h ⊢
      rw [← h]; rfl

/-- ENG's turn sees the buffer through a decode step's fetch only. -/
theorem engTurn_of_fetch_eq {s t : State} {m : Memory} (hf : fetch { s with buf := m } = fetch s)
    (h : engTurn s = .next t) : engTurn { s with buf := m } = .next { t with buf := m } := by
  by_cases hb : s.status = .busy
  · rw [engTurn_busy hb] at h
    rw [engTurn_busy (s := { s with buf := m }) hb]
    by_cases hc : s.cursor = s.slen
    · rw [if_pos hc] at h ⊢
      cases h; rfl
    · rw [if_neg hc] at h ⊢
      exact decodeStep_of_fetch_eq hf h
  · rw [engTurn_waits hb] at h
    rw [engTurn_waits (s := { s with buf := m }) hb]
    cases h; rfl

/-- Settles O38: decode_one and the fetch read the two bytes only, and the rest of the step sees the buffer through the
fetch. -/
theorem decodingDependsOnTheTwoBytesOnly : Obligations.DecodingDependsOnTheTwoBytesOnly := by
  refine ⟨fun _ _ _ _ => decodeOne_congr, fun s t m ht h0 h1 hstep => ?_⟩
  rw [step_of_none ht] at hstep
  rw [step_of_none (s := { s with buf := m }) ht]
  exact engTurn_of_fetch_eq (s := dropHost s) (fetch_congr (s := dropHost s) h0 h1) hstep

/-! ### decode_all -/

/-- `L` is the list of the records of the buffer's first instructions: record `i` is decode_one's at offset `2 * i`. -/
def DecodedPrefix (len : Nat) (mem : Nat → Byte) (L : List Record) : Prop :=
  ∀ i r, L[i]? = some r → decodeOne len mem (2 * i) = .ok (r, 2)

section
variable {len : Nat} {mem : Nat → Byte} {L : List Record}

theorem decodedPrefix_nil : DecodedPrefix len mem [] := by
  intro i r h
  simp at h

/-- A list with one record more is a decoded prefix when the instruction after the list decodes to that record. -/
theorem decodedPrefix_concat_iff {r : Record} :
    DecodedPrefix len mem (L ++ [r]) ↔ DecodedPrefix len mem L ∧ decodeOne len mem (2 * L.length) = .ok (r, 2) := by
  constructor
  · intro h
    refine ⟨fun i r' hi => h i r' ?_, h _ _ List.getElem?_concat_length⟩
    obtain ⟨hlt, -⟩ := List.getElem?_eq_some_iff.mp hi
    rwa [List.getElem?_append_left hlt]
  · rintro ⟨hL, hr⟩ i r' hi
    obtain ⟨hlt, -⟩ := List.getElem?_eq_some_iff.mp hi
    rw [List.length_append, List.length_singleton] at hlt
    rcases Nat.lt_succ_iff_lt_or_eq.mp hlt with hlt | rfl
    · rw [List.getElem?_append_left hlt] at hi
      exact hL i r' hi
    · rw [List.getElem?_concat_length] at hi
      cases hi
      exact hr

/-- Every instruction of a decoded prefix decodes. -/
theorem DecodedPrefix.decodes (h : DecodedPrefix len mem L) {j : Nat} (hj : j < L.length) :
    ∃ r, decodeOne len mem (2 * j) = .ok (r, 2) :=
  ⟨L[j], h j _ (List.getElem?_eq_getElem hj)⟩

/-- `k` instructions that decode have a decoded prefix of `k` records. -/
theorem exists_decodedPrefix {k : Nat} (h : ∀ j, j < k → ∃ r, decodeOne len mem (2 * j) = .ok (r, 2)) :
    ∃ L, L.length = k ∧ DecodedPrefix len mem L := by
  induction k with
  | zero => exact ⟨[], rfl, decodedPrefix_nil⟩
  | succ k ih =>
    obtain ⟨L, rfl, hL⟩ := ih fun j hj => h j (by omega)
    obtain ⟨r, hr⟩ := h L.length (by omega)
    exact ⟨L ++ [r], by simp, decodedPrefix_concat_iff.mpr ⟨hL, hr⟩⟩

/-- The loop runs through a decoded prefix, collecting it (R90). -/
theorem decodePass_of_decodedPrefix (h : DecodedPrefix len mem L) :
    decodePass len mem = decodeFrom len mem (len + 1) (2 * L.length) L := by
  induction L using List.reverseRecOn with
  | nil => rfl
  | append_singleton L r ih =>
    obtain ⟨hL, hr⟩ := decodedPrefix_concat_iff.mp h
    obtain ⟨-, hlen, -, -⟩ := decodeOne_ok hr
    rw [ih hL, decodeFrom_eq, if_neg (by omega), hr, List.length_append, List.length_singleton, Nat.mul_add]

/-- A decoded prefix that fills the buffer is the loop's list. -/
theorem decodePass_of_full (h : DecodedPrefix len mem L) (hlen : 2 * L.length = len) :
    decodePass len mem = .ok L := by
  rw [decodePass_of_decodedPrefix h, decodeFrom_eq, if_pos hlen]

/-- A failure behind a decoded prefix is the loop's failure, at its offset. -/
theorem decodePass_of_failure {e : Failure} (h : DecodedPrefix len mem L) (hlt : 2 * L.length < len)
    (he : decodeOne len mem (2 * L.length) = .error e) : decodePass len mem = .error (e, 2 * L.length) := by
  rw [decodePass_of_decodedPrefix h, decodeFrom_eq, if_neg (by omega), he]

theorem DecodedPrefix.length_le (h : DecodedPrefix len mem L) : 2 * L.length ≤ len := by
  cases hL : L.length with
  | zero => omega
  | succ k =>
    obtain ⟨r, hr⟩ := h.decodes (j := k) (by omega)
    obtain ⟨-, hlen, -, -⟩ := decodeOne_ok hr
    omega

/-- Some decoded prefix is longest: decode_one fails at its end, which is the buffer's end at the latest. -/
theorem exists_longest_decodedPrefix (len : Nat) (mem : Nat → Byte) :
    ∃ L e, DecodedPrefix len mem L ∧ decodeOne len mem (2 * L.length) = .error e := by
  classical
  have hstop : ∃ k, ¬ ∃ r, decodeOne len mem (2 * k) = .ok (r, 2) :=
    ⟨len, by simp [decodeOne_past mem (show len ≤ 2 * len by omega)]⟩
  obtain ⟨L, hlen, hL⟩ := exists_decodedPrefix fun j hj => not_not.mp (Nat.find_min hstop hj)
  have hend := Nat.find_spec hstop
  rw [← hlen] at hend
  cases hd : decodeOne len mem (2 * L.length) with
  | error e => exact ⟨L, e, hL, hd⟩
  | ok p =>
    obtain ⟨r, n⟩ := p
    obtain ⟨rfl, -, -, -⟩ := decodeOne_ok hd
    exact absurd ⟨r, hd⟩ hend

/-- The loop ends in one of two ways: at the end of the buffer with a decoded prefix that fills it, or behind
a decoded prefix at an instruction that fails (R90). -/
theorem decodePass_cases (len : Nat) (mem : Nat → Byte) :
    ∃ L, DecodedPrefix len mem L ∧
      ((2 * L.length = len ∧ decodePass len mem = .ok L) ∨
       ∃ e, 2 * L.length < len ∧ decodeOne len mem (2 * L.length) = .error e ∧
         decodePass len mem = .error (e, 2 * L.length)) := by
  obtain ⟨L, e, hL, he⟩ := exists_longest_decodedPrefix len mem
  refine ⟨L, hL, ?_⟩
  rcases Nat.eq_or_lt_of_le hL.length_le with hlen | hlt
  · exact .inl ⟨hlen, decodePass_of_full hL hlen⟩
  · exact .inr ⟨e, hlt, he, decodePass_of_failure hL hlt he⟩

theorem decodePass_ok_iff : decodePass len mem = .ok L ↔ 2 * L.length = len ∧ DecodedPrefix len mem L := by
  refine ⟨fun h => ?_, fun ⟨hlen, hL⟩ => decodePass_of_full hL hlen⟩
  obtain ⟨L', hL', ⟨hlen, hok⟩ | ⟨e, -, -, herr⟩⟩ := decodePass_cases len mem
  · cases hok.symm.trans h
    exact ⟨hlen, hL'⟩
  · cases herr.symm.trans h

theorem decodePass_error_iff {e : Failure} {c : Nat} :
    decodePass len mem = .error (e, c) ↔
      ∃ L, DecodedPrefix len mem L ∧ 2 * L.length = c ∧ c < len ∧ decodeOne len mem c = .error e := by
  constructor
  · intro h
    obtain ⟨L, hL, ⟨-, hok⟩ | ⟨e', hlt, he, herr⟩⟩ := decodePass_cases len mem
    · cases hok.symm.trans h
    · cases herr.symm.trans h
      exact ⟨L, hL, rfl, hlt, he⟩
  · rintro ⟨L, hL, rfl, hlt, he⟩
    exact decodePass_of_failure hL hlt he

/-- decode_all answers the loop's list (R90). -/
theorem decodeAll_ok_iff : decodeAll len mem = .ok L ↔ decodePass len mem = .ok L := by
  rw [decodeAll]
  cases decodePass len mem with
  | ok L' => simp
  | error p => simp

/-- decode_all answers the loop's failure without its offset (R90). -/
theorem decodeAll_error_iff {e : Failure} :
    decodeAll len mem = .error e ↔ ∃ c, decodePass len mem = .error (e, c) := by
  rw [decodeAll]
  cases decodePass len mem with
  | ok L' => simp
  | error p => obtain ⟨e', c⟩ := p; simp

end

/-- Settles O43: the loop's list is the decoded prefix that fills the buffer, and its failure comes behind a decoded prefix,
which is every earlier instruction decoded. -/
theorem decodeAllIsAllOrNothing : Obligations.DecodeAllIsAllOrNothing := by
  intro len mem
  refine ⟨fun L => ?_, fun e => ?_⟩
  · have hlen : 2 * L.length = len ↔ len % 2 = 0 ∧ L.length = len / 2 := by omega
    rw [decodeAll_ok_iff, decodePass_ok_iff, hlen, and_assoc]
    rfl
  · rw [decodeAll_error_iff]
    constructor
    · rintro ⟨c, h⟩
      obtain ⟨L, hL, rfl, hlt, he⟩ := decodePass_error_iff.mp h
      exact ⟨L.length, hlt, he, fun j => hL.decodes⟩
    · rintro ⟨k, hlt, he, hbefore⟩
      obtain ⟨L, rfl, hL⟩ := exists_decodedPrefix hbefore
      exact ⟨2 * L.length, decodePass_of_failure hL hlt he⟩

end Sys2Proof.Machine
end

section
/-! Failures and the ERROR state (60_exceptions.md): what a step outside BUSY can do, so what leaves ERROR (R108), and that a
pass's failure is the first failing instruction's and depends on no byte after it (R106). -/

namespace Sys2Proof.Machine

/-! ### Steps outside BUSY -/

/-- Outside BUSY a step is a START that begins a pass, a RESET, or a step that keeps every register of ENG. -/
theorem step_outside_busy_cases {s t : State} (hb : s.status ≠ .busy) (h : step s = .next t) :
    (pendingAction s = some .start ∧ t = beginPass (dropHost s)) ∨
    (pendingAction s = some .reset ∧ t = resetBlock (dropHost s)) ∨
    (t.status = s.status ∧ t.err = s.err ∧ t.cursor = s.cursor ∧ t.slen = s.slen ∧ t.nrec = s.nrec ∧
      t.out = s.out) := by
  rcases step_next_cases h with
    ⟨-, ⟨-, rfl⟩ | ⟨hbusy, -⟩ | ⟨hbusy, -⟩ | ⟨hbusy, -⟩⟩ |
    ⟨n, -, rfl⟩ | ⟨i, -, rfl⟩ | ⟨a, b, -, -, rfl⟩ | ⟨-, hbusy, -⟩ | ⟨hp, -, rfl⟩ | ⟨hp, rfl⟩
  · simp
  · exact absurd hbusy hb
  · exact absurd hbusy hb
  · exact absurd hbusy hb
  · simp
  · simp
  · simp
  · exact absurd hbusy hb
  · exact .inl ⟨hp, rfl⟩
  · exact .inr (.inl ⟨hp, rfl⟩)

/-- Settles O29: ERROR is outside BUSY, START goes on to BUSY, RESET to IDLE, and every other step keeps the registers. -/
theorem onlyStartOrResetLeavesError : Obligations.OnlyStartOrResetLeavesError := by
  intro s t herr hstep
  have hb : s.status ≠ .busy := by simp [herr]
  rcases step_outside_busy_cases hb hstep with ⟨hp, rfl⟩ | ⟨hp, rfl⟩ | ⟨hstatus, hregs⟩
  · exact ⟨fun _ => .inl hp, by simp⟩
  · exact ⟨fun _ => .inr hp, by simp⟩
  · exact ⟨fun hleft => absurd (hstatus.trans herr) hleft, fun _ => hregs⟩

/-! ### The first failure of a pass -/

/-- A decoded prefix is one over every buffer that agrees on the bytes of its instructions (R89). -/
theorem DecodedPrefix.congr {len : Nat} {mem mem' : Nat → Byte} {L : List Record} (h : DecodedPrefix len mem L)
    (hagree : ∀ a, a < 2 * L.length → mem' a = mem a) : DecodedPrefix len mem' L := by
  intro i r hi
  obtain ⟨hlt, -⟩ := List.getElem?_eq_some_iff.mp hi
  rw [decodeOne_congr (hagree _ (by omega)) (hagree _ (by omega))]
  exact h i r hi

/-- Settles O44: a failure comes behind a decoded prefix, and that prefix and decode_one's failure at its end read only the
bytes below the offset `c + 2`. -/
theorem bytesAfterTheFailureDoNotMatter : Obligations.BytesAfterTheFailureDoNotMatter := by
  intro len c mem e h
  obtain ⟨L, hL, rfl, hlt, he⟩ := decodePass_error_iff.mp h
  refine ⟨hlt, Nat.mul_mod_right 2 L.length, he, fun j hj => hL.decodes (by omega), fun mem' hagree => ?_⟩
  have hL' : DecodedPrefix len mem' L := hL.congr fun a ha => hagree a (by omega)
  have he' : decodeOne len mem' (2 * L.length) = .error e := by
    rw [decodeOne_congr (hagree _ (by omega)) (hagree _ (by omega)), he]
  exact decodePass_of_failure hL' hlt he'

end Sys2Proof.Machine
end

section
/-! Encoding and decoding (30_encoding.md): the operand byte and its three fields (R53, R60 to R62), the two flags in the
opcode byte (R69, R72), and that decoding and encoding are each other's inverse. -/

namespace Sys2Proof

open Machine

/-! ### The two bytes of an instruction -/

@[simp] theorem modField_operandByte (mod : BitVec 2) (reg rm : RegisterRef) :
    modField (operandByte mod reg rm) = mod := by
  unfold modField operandByte
  rw [BitVec.extractLsb'_append_eq_of_le (by decide), BitVec.extractLsb'_append_eq_left]

@[simp] theorem regField_operandByte (mod : BitVec 2) (reg rm : RegisterRef) :
    regField (operandByte mod reg rm) = regFieldOf reg := by
  unfold regField operandByte
  rw [BitVec.extractLsb'_append_eq_of_le (by decide), BitVec.extractLsb'_append_eq_right]

@[simp] theorem rmField_operandByte (mod : BitVec 2) (reg rm : RegisterRef) :
    rmField (operandByte mod reg rm) = regFieldOf rm :=
  BitVec.extractLsb'_append_eq_right

/-- The table reads a register back from its field at the register's own width (R21, R57). -/
theorem rtab_regFieldOf {r : RegisterRef} {w : Bool} (h : isWordReg r = w) :
    rtab (groupOf (regFieldOf r)) (altOf (regFieldOf r)) w = r := by
  subst h
  cases r <;> rfl

/-- A field is read back from the register it names. -/
theorem regFieldOf_rtab (f : BitVec 3) (w : Bool) : regFieldOf (rtab (groupOf f) (altOf f) w) = f := by
  rw [regFieldOf, regCode_rtab, BitVec.extractLsb'_append_eq_right]

/-- The operand byte is its three fields side by side (R53). -/
theorem fields_append (b1 : Byte) : modField b1 ++ regField b1 ++ rmField b1 = b1 := by
  have hupper : modField b1 ++ regField b1 = b1.extractLsb' 3 5 :=
    BitVec.extractLsb'_append_extractLsb'_eq_extractLsb' rfl
  calc modField b1 ++ regField b1 ++ rmField b1
    _ = b1.extractLsb' 3 5 ++ b1.extractLsb' 0 3 := by rw [hupper, rmField]
    _ = b1.extractLsb' 0 8 := BitVec.extractLsb'_append_extractLsb'_eq_extractLsb' rfl
    _ = b1 := BitVec.extractLsb'_eq_self

theorem operandByte_rtab (b1 : Byte) (w : Bool) :
    operandByte (modField b1) (rtab (groupOf (regField b1)) (altOf (regField b1)) w)
      (rtab (groupOf (rmField b1)) (altOf (rmField b1)) w) = b1 := by
  rw [operandByte, regFieldOf_rtab, regFieldOf_rtab, fields_append]

/-- A matched leading byte is the opcode byte of its own two flags: the signature fixes the other six bits (R66, R69). -/
theorem opcodeByte_flags {b0 : Byte} (h : matchesClass b0 = true) :
    opcodeByte (directionFlag b0) (widthFlag b0) = b0 := by
  have all : ∀ b : Byte, b &&& 0xFC = 0x88 → opcodeByte (directionFlag b) (widthFlag b) = b := by decide
  exact all b0 ((matchesClass_iff b0).mp h)

/-! ### The four forms at once -/

/-- Every instruction is the form of its two flags (R72). -/
theorem exists_eq_formOf (i : Instr) : ∃ d w mod reg rm, i = formOf d w mod reg rm := by
  cases i with
  | movBD0 mod reg rm => exact ⟨false, false, mod, reg, rm, rfl⟩
  | movWD0 mod reg rm => exact ⟨false, true, mod, reg, rm, rfl⟩
  | movBD1 mod reg rm => exact ⟨true, false, mod, reg, rm, rfl⟩
  | movWD1 mod reg rm => exact ⟨true, true, mod, reg, rm, rfl⟩

theorem encode_formOf (d w : Bool) (mod : BitVec 2) (reg rm : RegisterRef) :
    encode (formOf d w mod reg rm) = [opcodeByte d w, operandByte mod reg rm] := by
  cases d <;> cases w <;> rfl

theorem wellFormed_formOf_iff {d w : Bool} {mod : BitVec 2} {reg rm : RegisterRef} :
    WellFormed (formOf d w mod reg rm) ↔ isWordReg reg = w ∧ isWordReg rm = w := by
  have hcheck : (formOf d w mod reg rm).wellFormed = regsHaveWidth w reg rm := by
    cases d <;> cases w <;> rfl
  rw [WellFormed, hcheck, regsHaveWidth, Bool.and_eq_true, beq_iff_eq, beq_iff_eq]

/-- What the opcode byte of two flags decodes to, whatever the operand byte (R72, R85). -/
theorem decode_opcodeByte (d w : Bool) (b1 : Byte) (rest : List Byte) :
    decode (opcodeByte d w :: b1 :: rest) =
      .ok (formOf d w (modField b1) (rtab (groupOf (regField b1)) (altOf (regField b1)) w)
        (rtab (groupOf (rmField b1)) (altOf (rmField b1)) w), rest) := by
  rw [decode_pair b1 rest (matchesClass_opcodeByte d w), instrOf, directionFlag_opcodeByte, widthFlag_opcodeByte]

/-! ### Decoding and encoding -/

/-- Settles O1: the form's two flags and the operand byte's three fields are read back, and each field names its register
at the form's width. -/
theorem decodeOfEncodeReturnsTheInstruction : Obligations.DecodeOfEncodeReturnsTheInstruction := by
  intro i rest hwf
  obtain ⟨d, w, mod, reg, rm, rfl⟩ := exists_eq_formOf i
  obtain ⟨hreg, hrm⟩ := wellFormed_formOf_iff.mp hwf
  rw [encode_formOf, List.cons_append, List.singleton_append, decode_opcodeByte, modField_operandByte,
    regField_operandByte, rmField_operandByte, rtab_regFieldOf hreg, rtab_regFieldOf hrm]

theorem wellFormed_instrOf (b0 b1 : Byte) : WellFormed (instrOf b0 b1) :=
  wellFormed_formOf_iff.mpr ⟨isWordReg_rtab _ _ _, isWordReg_rtab _ _ _⟩

theorem encode_instrOf {b0 : Byte} (b1 : Byte) (h : matchesClass b0 = true) : encode (instrOf b0 b1) = [b0, b1] := by
  rw [instrOf, encode_formOf, opcodeByte_flags h, operandByte_rtab]

/-- Settles O2: bytes that decode are a matched leading byte and an operand byte, and these are what encodes the result. -/
theorem decodedBytesAreTheEncodingOfTheResult : Obligations.DecodedBytesAreTheEncodingOfTheResult := by
  intro bytes rest i h
  obtain ⟨b0, b1, rfl, hm, rfl⟩ := decode_ok_cases h
  exact ⟨wellFormed_instrOf b0 b1, by rw [encode_instrOf b1 hm]; rfl⟩

/-! ### The opcode map -/

/-- The matched leading bytes are the four opcode bytes (R72). -/
theorem eq_opcodeByte_of_matchesClass {b0 : Byte} (h : matchesClass b0 = true) :
    b0 = 0x88 ∨ b0 = 0x89 ∨ b0 = 0x8A ∨ b0 = 0x8B := by
  rw [← opcodeByte_flags h]
  cases directionFlag b0 <;> cases widthFlag b0 <;> decide

/-- Settles O3: the four leading bytes are the opcode bytes of the four pairs of flags, and no other byte is matched. -/
theorem opcodeMapDecidesEveryLeadingByte : Obligations.OpcodeMapDecidesEveryLeadingByte := by
  refine ⟨fun b1 rest => ?_, fun b0 rest h88 h89 h8A h8B => ?_⟩
  · exact ⟨_, _, _, _, regCode_rtab (regField b1) false, regCode_rtab (rmField b1) false,
      regCode_rtab (regField b1) true, regCode_rtab (rmField b1) true,
      decode_opcodeByte false false b1 rest, decode_opcodeByte false true b1 rest,
      decode_opcodeByte true false b1 rest, decode_opcodeByte true true b1 rest⟩
  · refine decode_unmatched rest fun hm => ?_
    rcases eq_opcodeByte_of_matchesClass hm with h | h | h | h
    · exact h88 h
    · exact h89 h
    · exact h8A h
    · exact h8B h

/-- Settles O4: each word's two bytes run through the decoder. -/
theorem writtenOutWordsDecode : Obligations.WrittenOutWordsDecode :=
  ⟨rfl, rfl, rfl, rfl, rfl⟩

/-- Settles O7: the pair that the field extractor answers, with group and alternate bit read from their places (R63). -/
theorem operandDecodeResolvesBothFields : Obligations.OperandDecodeResolvesBothFields :=
  operandDecode_eq

/-! ### The outputs of CLS, RFX and RTAB -/

theorem cls_isMatch (b0 : Byte) : (cls b0).isMatch = decide (b0 &&& 0xFC = 0x88) := by
  rw [Bool.eq_iff_iff, decide_eq_true_iff]
  exact matchesClass_iff b0

/-- RFX answers the codes `{W, field}`, and its group check never fails (R31, R65). -/
theorem rfx_eq (b1 : Byte) (w : Bool) :
    rfx b1 w = { first := BitVec.ofBool w ++ regField b1, second := BitVec.ofBool w ++ rmField b1,
                 mod := modField b1, gerr := false } := by
  simp only [rfx, operandDecode_eq, regCode_rtab]

/-- Settles O51: CLS by the signature, RFX and RTAB by the code of the table's answer. -/
theorem subBlockOutputs : Obligations.SubBlockOutputs := by
  refine ⟨fun b0 => ⟨cls_isMatch b0, rfl, rfl⟩, fun b1 w => ?_, regCode_rtab_eq⟩
  rw [rfx_eq]
  exact ⟨rfl, rfl, rfl, rfl⟩

end Sys2Proof
end

section
/-! The invariants of 10_state.md section 7: that they hold at reset, that every transfer of the machine keeps them, and that the
registers fit their widths where the host keeps to lengths up to MAX_LEN (41_decode_engine.md R97). -/

namespace Sys2Proof.Machine

/-! ### What keeps the invariant -/

/-- The invariant speaks of ENG's registers and the buffer's form only. -/
theorem Inv.of_registers_eq {s t : State} (h : Inv s)
    (hregs : t.status = s.status ∧ t.err = s.err ∧ t.cursor = s.cursor ∧ t.slen = s.slen ∧ t.nrec = s.nrec ∧
      t.out = s.out) (hbuf : t.buf.wf) : Inv t := by
  obtain ⟨hstatus, herr, hcursor, hslen, hnrec, hout⟩ := hregs
  constructor
  case buf_wf => exact hbuf
  all_goals simp only [hstatus, herr, hcursor, hslen, hnrec, hout]
  · exact h.cursor_le
  · exact h.cursor_even
  · exact h.nrec_eq_length
  · exact h.nrec_running
  · exact h.error_empty
  · exact h.done_at_end
  · exact h.idle_clear
  · exact h.err_iff_error
  · exact h.err_group_unused
  · exact h.record_widths

theorem Inv.dropHost {s : State} (h : Inv s) : Inv (dropHost s) :=
  h.of_registers_eq ⟨rfl, rfl, rfl, rfl, rfl, rfl⟩ h.buf_wf

/-- While a pass runs ERR is NONE (R19). -/
theorem Inv.err_none_of_busy {s : State} (h : Inv s) (hb : s.status = .busy) : s.err = .none := by
  by_contra herr
  have herror : s.status = .error := h.err_iff_error.mp herr
  rw [hb] at herror
  cases herror

/-- The completion step keeps the invariant: the pass ends where CURSOR has reached SLEN (R94). -/
theorem Inv.completePass {s : State} (h : Inv s) (hb : s.status = .busy) (hc : s.cursor = s.slen) :
    Inv (completePass s) where
  cursor_le := h.cursor_le
  cursor_even := h.cursor_even
  nrec_eq_length := h.nrec_eq_length
  nrec_running := fun _ => h.nrec_running (.inl hb)
  error_empty := by simp
  done_at_end := fun _ => hc
  idle_clear := by simp
  err_iff_error := by simp [h.err_none_of_busy hb]
  err_group_unused := h.err_group_unused
  record_widths := h.record_widths
  buf_wf := h.buf_wf

/-- The error step keeps the invariant, for the two failures that are raised (R95, R103). -/
theorem Inv.failPass {s : State} {e : Failure} (h : Inv s) (he : e = .truncated ∨ e = .unknownOpcode) :
    Inv (failPass e s) where
  cursor_le := h.cursor_le
  cursor_even := h.cursor_even
  nrec_eq_length := rfl
  nrec_running := by simp
  error_empty := fun _ => ⟨rfl, rfl⟩
  done_at_end := by simp
  idle_clear := by simp
  err_iff_error := by rcases he with rfl | rfl <;> simp [errOf]
  err_group_unused := by rcases he with rfl | rfl <;> simp [errOf]
  record_widths := by simp
  buf_wf := h.buf_wf

/-- Both registers of the record of two bytes have the record's width (R23). -/
theorem recordOf_instrOf_width (b0 b1 : Byte) :
    isWordReg (recordOf (instrOf b0 b1)).destination = (recordOf (instrOf b0 b1)).w ∧
    isWordReg (recordOf (instrOf b0 b1)).source = (recordOf (instrOf b0 b1)).w := by
  rw [recordOf_instrOf]
  exact moveRecord_width _ _ (isWordReg_rtab _ _ _) (isWordReg_rtab _ _ _)

/-- The decode step keeps the invariant: one record and two bytes more, inside the buffer (R93). -/
theorem Inv.retire {s : State} {r : Record} (h : Inv s) (hb : s.status = .busy) (h2 : s.cursor + 2 ≤ s.slen)
    (hr : isWordReg r.destination = r.w ∧ isWordReg r.source = r.w) : Inv (retire r 2 s) where
  cursor_le := h2
  cursor_even := by simpa using h.cursor_even
  nrec_eq_length := by simp [h.nrec_eq_length]
  nrec_running := fun _ => by simp [h.nrec_running (.inl hb)]
  error_empty := by simp [hb]
  done_at_end := by simp [hb]
  idle_clear := by simp [hb]
  err_iff_error := h.err_iff_error
  err_group_unused := h.err_group_unused
  record_widths := fun r' hr' => by
    rcases List.mem_append.mp hr' with hold | hnew
    · exact h.record_widths r' hold
    · cases List.mem_singleton.mp hnew
      exact hr
  buf_wf := h.buf_wf

theorem inv_beginPass {s : State} (hbuf : s.buf.wf) : Inv (beginPass s) where
  cursor_le := Nat.zero_le _
  cursor_even := rfl
  nrec_eq_length := rfl
  nrec_running := by simp
  error_empty := by simp
  done_at_end := by simp
  idle_clear := by simp
  err_iff_error := by simp
  err_group_unused := by simp
  record_widths := by simp
  buf_wf := hbuf

theorem inv_resetBlock {s : State} (hbuf : s.buf.wf) : Inv (resetBlock s) where
  cursor_le := Nat.le_refl 0
  cursor_even := rfl
  nrec_eq_length := rfl
  nrec_running := by simp
  error_empty := by simp
  done_at_end := by simp
  idle_clear := fun _ => ⟨rfl, rfl, rfl, rfl⟩
  err_iff_error := by simp
  err_group_unused := by simp
  record_widths := by simp
  buf_wf := hbuf

/-- Settles O39: the reset state holds what RESET gives, over an empty buffer. -/
theorem invariantHoldsAtReset : Obligations.InvariantHoldsAtReset :=
  ⟨inv_resetBlock (s := State.reset) List.Pairwise.nil, outIsPrefix_of_nil rfl⟩

/-- Settles O40: each of the transfers that a step can be keeps the invariant. -/
theorem everyStepKeepsTheInvariant : Obligations.EveryStepKeepsTheInvariant := by
  intro s t hinv hstep
  have hdrop : Inv (dropHost s) := hinv.dropHost
  rcases step_next_cases hstep with
    ⟨-, ⟨-, rfl⟩ | ⟨hb, hc, rfl⟩ | ⟨-, -, e, he, rfl⟩ | ⟨hb, b0, b1, h2, -, -, -, rfl⟩⟩ |
    ⟨n, -, rfl⟩ | ⟨i, -, rfl⟩ | ⟨a, b, -, -, rfl⟩ | ⟨-, -, rfl⟩ | ⟨-, -, rfl⟩ | ⟨-, rfl⟩
  · exact hdrop
  · exact hdrop.completePass hb hc
  · exact hdrop.failPass he
  · exact hdrop.retire hb h2 (recordOf_instrOf_width b0 b1)
  · exact hdrop.of_registers_eq ⟨rfl, rfl, rfl, rfl, rfl, rfl⟩ hdrop.buf_wf
  · exact hdrop.of_registers_eq ⟨rfl, rfl, rfl, rfl, rfl, rfl⟩ hdrop.buf_wf
  · exact hdrop.of_registers_eq ⟨rfl, rfl, rfl, rfl, rfl, rfl⟩ (write_wf a b hdrop.buf_wf)
  · exact hdrop
  · exact inv_beginPass hdrop.buf_wf
  · exact inv_resetBlock hdrop.buf_wf

/-! ### The OPEN parameters MAX_LEN and ADDR_W -/

/-- NREC counts at most one record for each two bytes decoded, in every STATUS (R34). -/
theorem Inv.nrec_le {s : State} (h : Inv s) : s.nrec ≤ s.cursor / 2 := by
  cases hst : s.status with
  | idle =>
    obtain ⟨-, -, hnrec, -⟩ := h.idle_clear hst
    omega
  | busy => exact (h.nrec_running (.inl hst)).le
  | done => exact (h.nrec_running (.inr hst)).le
  | error =>
    obtain ⟨hnrec, -⟩ := h.error_empty hst
    omega

theorem mem_host_of_pendingAction {s : State} {act : HostAction} (h : pendingAction s = some act) :
    some act ∈ s.host :=
  List.mem_of_mem_head? (Option.join_eq_some_iff.mp h)

/-- Where a step's SLEN, LEN_IN and pending actions come from. -/
theorem step_lengths {s t : State} (h : step s = .next t) :
    (t.slen = s.slen ∨ t.slen = s.lenIn ∨ t.slen = 0) ∧
    (t.lenIn = s.lenIn ∨ some (.driveLenIn t.lenIn) ∈ s.host) ∧ t.host = s.host.tail := by
  rcases step_next_cases h with
    ⟨-, ⟨-, rfl⟩ | ⟨-, -, rfl⟩ | ⟨-, -, e, -, rfl⟩ | ⟨-, b0, b1, -, -, -, -, rfl⟩⟩ |
    ⟨n, hp, rfl⟩ | ⟨i, -, rfl⟩ | ⟨a, b, -, -, rfl⟩ | ⟨-, -, rfl⟩ | ⟨-, -, rfl⟩ | ⟨-, rfl⟩
  case inr.inl => exact ⟨.inl rfl, .inr (mem_host_of_pendingAction hp), rfl⟩
  all_goals simp

/-- A host that keeps to the lengths up to MAX_LEN does so after every step (R7). -/
theorem WithinInstance.of_step {P : Config.Params} {s t : State} (h : WithinInstance P s) (hstep : step s = .next t) :
    WithinInstance P t := by
  obtain ⟨hslen, hlenIn, hhost⟩ := step_lengths hstep
  have hs := h.slen_le
  have hl := h.lenIn_le
  refine ⟨by omega, ?_, fun n hn => ?_⟩
  · rcases hlenIn with hkept | hdriven
    · omega
    · exact h.driven_le _ hdriven
  · rw [hhost] at hn
    exact h.driven_le n (List.mem_of_mem_tail hn)

theorem maxLen_lt (P : Config.Params) : P.maxLen < 2 ^ P.addrW :=
  Nat.lt_of_le_pred (Nat.two_pow_pos _) P.fits

/-- Settles O42: a step keeps the invariant and the host's bounds, and these bound CURSOR by SLEN and NREC by half of
CURSOR. -/
theorem registersFitTheInstance : Obligations.RegistersFitTheInstance := by
  intro P s t hinv hwithin hstep
  have hinv' : Inv t := everyStepKeepsTheInvariant s t hinv hstep
  have hwithin' : WithinInstance P t := hwithin.of_step hstep
  have hslen := hwithin'.slen_le
  have hmax := maxLen_lt P
  have hcursor := hinv'.cursor_le
  have hnrec := hinv'.nrec_le
  have hout := hinv'.nrec_eq_length
  refine ⟨hwithin', by omega, by omega, by omega, ?_⟩
  calc t.out.length
    _ = t.nrec := hout.symm
    _ ≤ P.maxLen / 2 := by omega
    _ = P.maxRecords := rfl

end Sys2Proof.Machine
end

section
/-! Failures: which ones decode_one raises and when (60_exceptions.md section 2), that UnknownRegisterGroup is not among them (R103),
and the error step, which discards every record (R95, R107). -/

namespace Sys2Proof.Machine

/-! ### The failures of decode_one -/

/-- Each failure that decode_one answers, with the check that raises it (R85, R105). -/
theorem decodeOne_error {slen c : Nat} {mem : Nat → Byte} {e : Failure} (h : decodeOne slen mem c = .error e) :
    (slen ≤ c ∧ e = .truncated) ∨
    (c < slen ∧ ¬ matchesClass (mem c) = true ∧ e = .unknownOpcode) ∨
    (c < slen ∧ slen < c + 2 ∧ matchesClass (mem c) = true ∧ e = .truncated) := by
  by_cases hc : slen ≤ c
  · rw [decodeOne_past mem hc] at h
    cases h
    exact .inl ⟨hc, rfl⟩
  · have hlt : c < slen := Nat.not_le.mp hc
    by_cases hm : matchesClass (mem c) = true
    · by_cases h2 : c + 2 ≤ slen
      · rw [decodeOne_pair h2 hm] at h
        cases h
      · rw [decodeOne_lone hlt (Nat.not_le.mp h2) hm] at h
        cases h
        exact .inr (.inr ⟨hlt, Nat.not_le.mp h2, hm, rfl⟩)
    · rw [decodeOne_unmatched hlt hm] at h
      cases h
      exact .inr (.inl ⟨hlt, hm, rfl⟩)

/-- Settles O12: decode_one's four cases, one for each check and one for their all passing. -/
theorem decodeOneRaisesTheFirstFailedCheck : Obligations.DecodeOneRaisesTheFirstFailedCheck := by
  refine fun slen mem c => ⟨decodeOne_past mem, fun hlt hm => ?_, fun hlt hm h2 => ?_, fun h2 hm => ?_⟩
  · exact decodeOne_unmatched hlt (Bool.not_eq_true _ ▸ hm)
  · exact decodeOne_lone hlt h2 hm
  · exact ⟨_, decodeOne_pair h2 hm⟩

theorem decode_ne_unknownRegisterGroup (bytes : List Byte) : decode bytes ≠ .error .unknownRegisterGroup := by
  intro h
  rcases decode_error_cases h with he | he <;> cases he

theorem decodeOne_ne_unknownRegisterGroup (slen : Nat) (mem : Nat → Byte) (c : Nat) :
    decodeOne slen mem c ≠ .error .unknownRegisterGroup := by
  intro h
  rcases decodeOne_error h with ⟨-, he⟩ | ⟨-, -, he⟩ | ⟨-, -, -, he⟩ <;> cases he

/-- A step keeps ERR, clears it, or puts a failure into it that is raised (R19, R103). -/
theorem step_err {s t : State} (h : step s = .next t) :
    t.err = s.err ∨ t.err = .none ∨ t.err = .truncated ∨ t.err = .unknownOpcode := by
  rcases step_next_cases h with
    ⟨-, ⟨-, rfl⟩ | ⟨-, -, rfl⟩ | ⟨-, -, e, he, rfl⟩ | ⟨-, b0, b1, -, -, -, -, rfl⟩⟩ |
    ⟨n, -, rfl⟩ | ⟨i, -, rfl⟩ | ⟨a, b, -, -, rfl⟩ | ⟨-, -, rfl⟩ | ⟨-, -, rfl⟩ | ⟨-, rfl⟩
  · exact .inl rfl
  · exact .inl rfl
  · rcases he with rfl | rfl
    · exact .inr (.inr (.inl rfl))
    · exact .inr (.inr (.inr rfl))
  · exact .inl rfl
  · exact .inl rfl
  · exact .inl rfl
  · exact .inl rfl
  · exact .inl rfl
  · exact .inr (.inl rfl)
  · exact .inr (.inl rfl)

/-- Settles O8: decode and decode_one raise the two other failures only, and so does the step that writes ERR. -/
theorem unknownRegisterGroupIsNeverRaised : Obligations.UnknownRegisterGroupIsNeverRaised := by
  refine ⟨decode_ne_unknownRegisterGroup, decodeOne_ne_unknownRegisterGroup, nofun, fun s t hs hstep => ?_⟩
  rcases step_err hstep with h | h | h | h <;> rw [h]
  · exact hs
  all_goals nofun

/-! ### The error step -/

/-- With b0 in the buffer and its class not matched, the step takes the failure UnknownOpcode (R95, R102). -/
theorem step_unknownOpcode {s : State} {b0 : Byte} (hb : s.status = .busy) (ht : EngTurn s) (hlt : s.cursor < s.slen)
    (h0 : s.buf.read s.cursor = some b0) (hm : ¬ matchesClass b0 = true) :
    step s = .next (failPass .unknownOpcode (dropHost s)) := by
  have hf : fetch (dropHost s) = some [b0] := fetch_one (s := dropHost s) hlt h0 fun h => hm h.1
  rw [step_decodes hb ht hlt.ne]
  simp only [decodeStep, hf, decode_unmatched [] hm]

/-- Past the end, which is not the end, the step takes the failure Truncated (R95, R101). -/
theorem step_past {s : State} (hb : s.status = .busy) (ht : EngTurn s) (hgt : s.slen < s.cursor) :
    step s = .next (failPass .truncated (dropHost s)) := by
  have hf : fetch (dropHost s) = some [] := fetch_past (s := dropHost s) hgt.le
  rw [step_decodes hb ht hgt.ne']
  simp only [decodeStep, hf, decode_nil]

/-- Where decode_one fails over the placed bytes, ENG's step takes its failure (R95). -/
theorem step_fails {s : State} {mem : Nat → Byte} {e : Failure} (hb : s.status = .busy) (ht : EngTurn s)
    (hc : s.cursor ≠ s.slen) (hplaced : Placed s s.slen mem) (h : decodeOne s.slen mem s.cursor = .error e) :
    step s = .next (failPass e (dropHost s)) := by
  rcases decodeOne_error h with ⟨hpast, rfl⟩ | ⟨hlt, hm, rfl⟩ | ⟨hlt, h2, hm, rfl⟩
  · exact step_past hb ht (Nat.lt_of_le_of_ne hpast hc.symm)
  · exact step_unknownOpcode hb ht hlt (hplaced _ hlt) hm
  · exact step_truncated hb ht hc h2 (hplaced _ hlt) hm

/-- Settles O22: the error step is failPass of decode_one's failure. -/
theorem errorStepFollowsDecodeOne : Obligations.ErrorStepFollowsDecodeOne :=
  fun _ _ _ hb ht hc hplaced h => step_fails hb ht hc hplaced h

/-! ### What the host sees of the records -/

/-- OUT_REC is 0 from NREC on (R28). -/
theorem outRec_past {s : State} (h : s.nrec ≤ s.outIdx) : outRec s = 0 := if_neg (Nat.not_lt.mpr h)

/-- At ERROR the host renders nothing (R123 step 5). -/
theorem renderedPass_error {s : State} (h : s.status = .error) : renderedPass s = [] := by
  simp only [renderedPass, passResult, h]

/-- Settles O24: the error step empties OUT and sets NREC to 0, and leaves the pass in ERROR. -/
theorem failureDiscardsEveryRecord : Obligations.FailureDiscardsEveryRecord := by
  intro s t mem e hb ht hc hplaced h hstep
  cases (step_fails hb ht hc hplaced h).symm.trans hstep
  exact ⟨rfl, rfl, rfl, rfl, rfl, rfl, fun i => outRec_past (Nat.zero_le i), renderedPass_error rfl⟩

end Sys2Proof.Machine
end

section
/-! Single steps: exec of the four forms (40_register_move.md), the host's START, RESET and pins (70_reset_and_hazards.md),
and what a host action leaves to the running pass. -/

namespace Sys2Proof.Machine

/-! ### The four forms -/

/-- Settles O17: with D = 0 the retired record has RM's register as its destination. -/
theorem directionZeroFormsComplete : Obligations.DirectionZeroFormsComplete :=
  fun _ _ _ _ => ⟨exec_eq _ _, exec_eq _ _⟩

/-- Settles O18: with D = 1 the retired record has REG's register as its destination. -/
theorem directionOneFormsComplete : Obligations.DirectionOneFormsComplete :=
  fun _ _ _ _ => ⟨exec_eq _ _, exec_eq _ _⟩

/-- Settles O19: each form retires one record, which leaves the earlier ones where they are. -/
theorem registerMoveFrame : Obligations.RegisterMoveFrame := by
  intro i s t h
  cases (exec_eq i s).symm.trans h
  exact ⟨rfl, rfl, rfl, rfl, rfl, rfl, List.length_append, fun k hk => List.getElem?_append_left hk, fun _ => rfl⟩

/-- Settles O20: bytes that decode have a matched leading byte, and the step then retires the record of the instruction. -/
theorem stepRunsTheDecodedInstruction : Obligations.StepRunsTheDecodedInstruction := by
  intro s b0 b1 i hb ht h2 h0 h1 hd
  obtain ⟨c0, c1, hbytes, hm, rfl⟩ := decode_ok_cases hd
  cases hbytes
  rw [step_retires hb ht h2 h0 h1 hm]
  exact (exec_eq _ _).symm

/-! ### START, RESET and waiting -/

/-- Outside BUSY a START begins a pass (R92). -/
theorem step_start_begins {s : State} (hp : pendingAction s = some .start) (hb : s.status ≠ .busy) :
    step s = .next (beginPass (dropHost s)) := by
  rw [step_of_some hp, hostTurn, startPass_begins (s := dropHost s) hb]

/-- While BUSY a START does nothing (R124). -/
theorem step_start_busy {s : State} (hp : pendingAction s = some .start) (hb : s.status = .busy) :
    step s = .next (dropHost s) := by
  rw [step_of_some hp, hostTurn, startPass_busy (s := dropHost s) hb]

/-- Settles O25: the two cases of START. -/
theorem startBeginsAPassUnlessBusy : Obligations.StartBeginsAPassUnlessBusy :=
  fun _ hp => ⟨step_start_begins hp, step_start_busy hp⟩

/-- Settles O26: RESET is resetBlock in every STATUS. -/
theorem resetReturnsEveryRegister : Obligations.ResetReturnsEveryRegister :=
  fun s hp => ⟨resetBlock (dropHost s), step_of_some hp, rfl, rfl, rfl, rfl, rfl, rfl, rfl, rfl, rfl, rfl⟩

/-- Settles O27: the fields of the reset state, and the port's reading of them. -/
theorem resetStateHoldsTheResetValues : Obligations.ResetStateHoldsTheResetValues :=
  ⟨rfl, rfl, rfl, rfl, rfl, rfl, rfl⟩

/-- Settles O28: outside BUSY ENG's turn answers the state it is given. -/
theorem engineWaitsOutsideBusy : Obligations.EngineWaitsOutsideBusy := by
  intro s hb ht
  rw [step_of_none ht]
  exact engTurn_waits (s := dropHost s) hb

/-! ### LEN_IN and a running pass -/

/-- Settles O30: driving the pin changes the pin, and no condition on what ENG's step does reads it (R127). -/
theorem lenInDoesNotReachARunningPass : Obligations.LenInDoesNotReachARunningPass := by
  refine ⟨fun s n hp => step_of_some hp, fun s t n ht hstep => ?_⟩
  by_cases hb : s.status = .busy
  · by_cases hc : s.cursor = s.slen
    · cases (completionStepEndsThePass s hb ht hc).symm.trans hstep
      exact completionStepEndsThePass { s with lenIn := n } hb ht hc
    · rw [step_decodes hb ht hc] at hstep
      rcases decodeStep_cases (dropHost s) with
        ⟨e, he, ⟨hpast, rfl⟩ | ⟨b0, hlt, h0, hm, rfl⟩ | ⟨b0, hlt, h0, hm, h2, rfl⟩⟩ |
        ⟨b0, b1, h2, h0, h1, hm, he⟩ | ⟨he, -⟩ <;> cases he.symm.trans hstep
      · exact step_past (s := { s with lenIn := n }) hb ht (Nat.lt_of_le_of_ne hpast (Ne.symm hc))
      · exact step_unknownOpcode (s := { s with lenIn := n }) hb ht hlt h0 hm
      · exact step_truncated (s := { s with lenIn := n }) hb ht hc h2 h0 hm
      · exact step_retires (s := { s with lenIn := n }) hb ht h2 h0 h1 hm
  · cases (engineWaitsOutsideBusy s hb ht).symm.trans hstep
    exact engineWaitsOutsideBusy { s with lenIn := n } hb ht

/-! ### The host's writes to the buffer -/

/-- A byte that the host may place lands (R123 step 1). -/
theorem step_places {s : State} {a : Nat} {b : Byte} (hp : pendingAction s = some (.placeByte a b))
    (hland : s.status = .busy → s.slen ≤ a) : step s = .next (landByte a b (dropHost s)) := by
  rw [step_of_some hp, hostTurn]
  exact placeByte_lands (s := dropHost s) b fun h => absurd (hland h.1) (Nat.not_le.mpr h.2)

/-- Settles O35: the landed byte reads back, and only the buffer and the host's list are not the old ones. -/
theorem placedByteReadsBack : Obligations.PlacedByteReadsBack := by
  intro s a b hp hland
  exact ⟨_, step_places hp hland, read_write_same s.buf a b, fun a' ha => read_write_other s.buf b ha,
    write_wf a b, rfl⟩

/-- Settles O36: this is placeByte's refusal. -/
theorem writeDuringPassIsRefused : Obligations.WriteDuringPassIsRefused := by
  intro s a b hb hp ha
  rw [step_of_some hp, hostTurn]
  exact placeByte_refused (s := dropHost s) b ⟨hb, ha⟩

/-- Settles O31: each action but RESET keeps ENG's registers while BUSY, and a byte lands only past the pass's bytes. -/
theorem hostActionsDoNotDisturbAPass : Obligations.HostActionsDoNotDisturbAPass := by
  intro s act hb hp hne hplace
  cases act with
  | driveLenIn n => exact ⟨_, step_of_some hp, rfl, rfl, rfl, rfl, rfl, rfl, fun _ _ => rfl⟩
  | driveOutIdx i => exact ⟨_, step_of_some hp, rfl, rfl, rfl, rfl, rfl, rfl, fun _ _ => rfl⟩
  | placeByte a b =>
    have hpast : s.slen ≤ a := hplace a b rfl
    exact ⟨_, step_places hp fun _ => hpast, rfl, rfl, rfl, rfl, rfl, rfl,
      fun a' ha' => read_write_other s.buf b (by omega)⟩
  | start => exact ⟨_, step_start_busy hp hb, rfl, rfl, rfl, rfl, rfl, rfl, fun _ _ => rfl⟩
  | reset => exact absurd rfl hne

/-- A step keeps the buffer, or it is one in which the host's byte lands (20_memory.md section 4). -/
theorem step_buf {s t : State} (h : step s = .next t) :
    t.buf = s.buf ∨
    ∃ a b, pendingAction s = some (.placeByte a b) ∧ ¬ (s.status = .busy ∧ a < s.slen) ∧ t.buf = s.buf.write a b := by
  rcases step_next_cases h with
    ⟨-, ⟨-, rfl⟩ | ⟨-, -, rfl⟩ | ⟨-, -, e, -, rfl⟩ | ⟨-, b0, b1, -, -, -, -, rfl⟩⟩ |
    ⟨n, -, rfl⟩ | ⟨i, -, rfl⟩ | ⟨a, b, hp, hland, rfl⟩ | ⟨-, -, rfl⟩ | ⟨-, -, rfl⟩ | ⟨-, rfl⟩
  case inr.inr.inr.inl => exact .inr ⟨a, b, hp, hland, rfl⟩
  all_goals exact .inl rfl

/-- Settles O34: the buffer changes only by a byte that lands, and while BUSY that byte lands past the pass's bytes. -/
theorem onlyTheHostWritesTheBuffer : Obligations.OnlyTheHostWritesTheBuffer := by
  intro s t hstep
  rcases step_buf hstep with hbuf | ⟨a, b, hp, hland, hbuf⟩
  · rw [hbuf]
    exact ⟨fun _ => ⟨rfl, fun _ => rfl⟩, fun _ _ _ => rfl⟩
  · refine ⟨fun hno => absurd hp (hno a b), fun hb a' ha' => ?_⟩
    rw [hbuf]
    refine read_write_other s.buf b fun heq => hland ⟨hb, ?_⟩
    rwa [← heq]

/-! ### The fault -/

theorem decodeStep_fault_iff {s : State} {f : Fault} :
    decodeStep s = .fault f ↔ ∃ a ∈ fetchAddrs s, s.buf.read a = none := by
  rw [← readAll_eq_none_iff, ← fetch, decodeStep]
  cases fetch s with
  | none => cases f; simp
  | some bytes =>
    cases hd : decode bytes with
    | error e => simp [hd]
    | ok p => simp [hd, exec_eq]

theorem engTurn_fault_iff {s : State} {f : Fault} :
    engTurn s = .fault f ↔ s.status = .busy ∧ s.cursor ≠ s.slen ∧ ∃ a ∈ fetchAddrs s, s.buf.read a = none := by
  by_cases hb : s.status = .busy
  · rw [engTurn_busy hb, ← decodeStep_fault_iff (f := f)]
    by_cases hc : s.cursor = s.slen
    · simp [hc]
    · simp [hb, hc]
  · simp [engTurn_waits hb, hb]

/-- No action of the host's makes a fault. -/
theorem hostTurn_ne_fault (act : HostAction) (s : State) (f : Fault) : hostTurn act s ≠ .fault f := by
  cases act with
  | placeByte a b =>
    rw [hostTurn]
    by_cases h : s.status = .busy ∧ a < s.slen
    · rw [placeByte_refused b h]; nofun
    · rw [placeByte_lands b h]; nofun
  | _ => nofun

/-- Settles O37: of the two turns ENG's alone can fault, in a decode step whose fetch finds an offset without a byte. -/
theorem faultsExactlyOnAnUnplacedByte : Obligations.FaultsExactlyOnAnUnplacedByte := by
  intro s f
  cases hp : pendingAction s with
  | none =>
    rw [step_of_none hp, engTurn_fault_iff]
    exact ⟨fun ⟨hb, hfetch⟩ => ⟨hb, hp, hfetch⟩, fun ⟨hb, _, hfetch⟩ => ⟨hb, hfetch⟩⟩
  | some act =>
    rw [step_of_some hp]
    refine iff_of_false (hostTurn_ne_fault act _ f) fun ⟨_, ht, _⟩ => ?_
    rw [EngTurn, hp] at ht
    cases ht

end Sys2Proof.Machine
end

section
/-! A whole pass (41_decode_engine.md section 3, R96): START, one decode step for each instruction that decodes, and the
completion or the error step at the end. -/

namespace Sys2Proof.Machine

/-- The step after a run that answers a next state. -/
theorem run_concat {k : Nat} {s t u : State} (h : run k s = .next t) (hstep : step t = .next u) :
    run (k + 1) s = .next u := by
  rw [run_add k h, run_succ 0 hstep, run_zero]

/-- A decoded prefix cut short is one. -/
theorem DecodedPrefix.take {len : Nat} {mem : Nat → Byte} {L : List Record} (h : DecodedPrefix len mem L) (k : Nat) :
    DecodedPrefix len mem (L.take k) := by
  intro i r hi
  rw [List.getElem?_take] at hi
  split at hi
  · exact h i r hi
  · cases hi

/-- The pass begun at `s`, with the host silent, when it has decoded the records `L`. -/
def passAfter (s : State) (L : List Record) : State :=
  { s with host := [], status := .busy, err := .none, cursor := 2 * L.length, slen := s.lenIn, nrec := L.length,
           out := L }

section
variable {s : State} {mem : Nat → Byte} {L : List Record}

/-- One run step is START's (R92). -/
theorem run_start (hst : s.status ≠ .busy) (hhost : s.host = [some .start]) : run 1 s = .next (passAfter s []) := by
  have hp : pendingAction s = some .start := by rw [pendingAction, hhost]; rfl
  have hbegun : beginPass (dropHost s) = passAfter s [] := by
    rw [beginPass, dropHost, hhost]; rfl
  rw [run_succ 0 (step_start_begins hp hst), hbegun, run_zero]

/-- A step of the pass over an instruction that decodes adds its record (R93). -/
theorem step_passAfter {r : Record} (hplaced : Placed s s.lenIn mem)
    (hr : decodeOne s.lenIn mem (2 * L.length) = .ok (r, 2)) :
    step (passAfter s L) = .next (passAfter s (L ++ [r])) := by
  obtain ⟨-, h2, -, -⟩ := decodeOne_ok hr
  have hc : (passAfter s L).cursor ≠ (passAfter s L).slen := by
    simp only [passAfter]; omega
  have hlen : (L ++ [r]).length = L.length + 1 := List.length_append
  rw [decodeStepFollowsDecodeOne (passAfter s L) mem r 2 rfl rfl hc hplaced hr, passAfter, passAfter, hlen]
  rfl

/-- START and one decode step for each record of a decoded prefix lead to the pass after that prefix. -/
theorem run_decodedPrefix (hst : s.status ≠ .busy) (hhost : s.host = [some .start]) (hplaced : Placed s s.lenIn mem)
    (hL : DecodedPrefix s.lenIn mem L) : run (1 + L.length) s = .next (passAfter s L) := by
  induction L using List.reverseRecOn with
  | nil => exact run_start hst hhost
  | append_singleton L r ih =>
    obtain ⟨hL, hr⟩ := decodedPrefix_concat_iff.mp hL
    rw [List.length_append, List.length_singleton, ← Nat.add_assoc]
    exact run_concat (ih hL) (step_passAfter hplaced hr)

/-- The pass is BUSY through the decode steps of a decoded prefix. -/
theorem run_busy (hst : s.status ≠ .busy) (hhost : s.host = [some .start]) (hplaced : Placed s s.lenIn mem)
    (hL : DecodedPrefix s.lenIn mem L) {k : Nat} (hk : k ≤ L.length) :
    ∃ t, run (1 + k) s = .next t ∧ t.status = .busy := by
  have hrun := run_decodedPrefix hst hhost hplaced (hL.take k)
  rw [List.length_take_of_le hk] at hrun
  exact ⟨_, hrun, rfl⟩

end

/-- Settles O45: decode_all's list is a decoded prefix that fills the buffer, so the step after it is the completion step. -/
theorem passEndsDoneWithDecodeAllsList : Obligations.PassEndsDoneWithDecodeAllsList := by
  intro s mem L hst hhost hplaced hall
  obtain ⟨hlen, hL⟩ := decodePass_ok_iff.mp (decodeAll_ok_iff.mp hall)
  have hhalf : s.lenIn / 2 = L.length := by omega
  rw [hhalf]
  refine ⟨fun k hk => run_busy hst hhost hplaced hL hk, ?_⟩
  rw [← Nat.add_assoc, run_concat (run_decodedPrefix hst hhost hplaced hL)
    (completionStepEndsThePass (passAfter s L) rfl rfl hlen), passAfter, hlen]
  rfl

/-- Settles O46: the failure comes behind a decoded prefix, so the step after that prefix is the error step. -/
theorem passEndsInErrorAtTheFailingOffset : Obligations.PassEndsInErrorAtTheFailingOffset := by
  intro s mem e c hst hhost hplaced hpass
  obtain ⟨L, hL, rfl, hlt, he⟩ := decodePass_error_iff.mp hpass
  have hhalf : 2 * L.length / 2 = L.length := by omega
  rw [hhalf]
  refine ⟨fun k hk => run_busy hst hhost hplaced hL hk, ?_⟩
  rw [← Nat.add_assoc]
  exact run_concat (run_decodedPrefix hst hhost hplaced hL)
    (step_fails (s := passAfter s L) rfl rfl hlt.ne hplaced he)

end Sys2Proof.Machine
end

section
/-! What the host and the sub-blocks see (10_state.md sections 2, 5 and 6): the record word, the read port, OUT_REC, the result of
a pass, and DEC's outputs. -/

namespace Sys2Proof.Machine

/-! ### The record word -/

/-- MOD stands in bits 11:10 of the word (R20). -/
@[simp] theorem packRecord_mod (r : Record) : (packRecord r).extractLsb' 10 2 = r.mod := by
  unfold packRecord
  rw [BitVec.extractLsb'_append_eq_of_le (by decide), BitVec.extractLsb'_append_eq_of_le (by decide),
    BitVec.extractLsb'_append_eq_of_le (by decide), BitVec.extractLsb'_append_eq_left]

/-- D stands in bit 9 of the word (R20). -/
@[simp] theorem packRecord_d (r : Record) : (packRecord r).getLsbD 9 = r.d := by
  unfold packRecord
  rw [BitVec.getLsbD_append, BitVec.getLsbD_append, BitVec.getLsbD_append, BitVec.getLsbD_append]
  simp

/-- W stands in bit 8 of the word (R20). -/
@[simp] theorem packRecord_w (r : Record) : (packRecord r).getLsbD 8 = r.w := by
  unfold packRecord
  rw [BitVec.getLsbD_append, BitVec.getLsbD_append, BitVec.getLsbD_append]
  simp

/-- The word's bit 7, DST[3], is the destination's width (R21). -/
theorem packRecord_bit7 (r : Record) : (packRecord r).getLsbD 7 = isWordReg r.destination := by
  rw [isWordReg, ← packRecord_dst, BitVec.getLsbD_extractLsb']
  rfl

/-- The word's bit 3, SRC[3], is the source's width (R21). -/
theorem packRecord_bit3 (r : Record) : (packRecord r).getLsbD 3 = isWordReg r.source := by
  rw [isWordReg, ← packRecord_src, BitVec.getLsbD_extractLsb']
  rfl

/-- Settles O47: the five fields of the word, and the invariant's widths at its bits 7, 3 and 8. -/
theorem recordWordLayout : Obligations.RecordWordLayout := by
  refine ⟨fun r => ⟨packRecord_mod r, packRecord_d r, packRecord_w r, packRecord_dst r, packRecord_src r⟩,
    fun s r hinv hr => ?_⟩
  obtain ⟨hdst, hsrc⟩ := hinv.record_widths r hr
  rw [packRecord_bit7, packRecord_bit3, packRecord_w]
  exact ⟨hdst, hsrc⟩

/-! ### The read port and OUT_REC -/

/-- Port 0 tells STATUS: its code is read there, and no two have one code (R18, R26). -/
theorem readPort_zero_iff {s : State} (st : Status) :
    readPort 0 s = some (statusCode st).toNat ↔ s.status = st := by
  simp only [readPort, Option.some.injEq]
  cases s.status <;> cases st <;> decide

/-- Port 1 tells ERR (R19, R26). -/
theorem readPort_one_iff {s : State} (er : Err) : readPort 1 s = some (errCode er).toNat ↔ s.err = er := by
  simp only [readPort, Option.some.injEq]
  cases s.err <;> cases er <;> decide

/-- OUT_REC is the word of the record at OUT_IDX (R28). -/
theorem outRec_of_getElem? {s : State} {r : Record} (hlt : s.outIdx < s.nrec) (h : s.out[s.outIdx]? = some r) :
    outRec s = packRecord r := by
  simp only [outRec, if_pos hlt, h]

/-- Settles O48: the ports by their codes, and OUT_REC by the invariant's NREC = OUT's length. -/
theorem readPortAndOutRec : Obligations.ReadPortAndOutRec := by
  intro s hinv
  refine ⟨readPort_zero_iff .idle, readPort_zero_iff .busy, readPort_zero_iff .done, readPort_zero_iff .error,
    readPort_one_iff .none, readPort_one_iff .truncated, readPort_one_iff .unknownOpcode,
    fun h => hinv.err_group_unused ((readPort_one_iff .unknownRegisterGroup).mp h), rfl, rfl, rfl,
    fun i r hi => ?_, fun i hi => outRec_past hi⟩
  obtain ⟨hlt, -⟩ := List.getElem?_eq_some_iff.mp hi
  rw [← hinv.nrec_eq_length] at hlt
  exact outRec_of_getElem? (s := { s with outIdx := i }) hlt hi

/-- Settles O49: of the four values of STATUS only DONE has a list for its result. -/
theorem onlyDoneHasARecordList : Obligations.OnlyDoneHasARecordList := by
  intro s L
  cases hst : s.status with
  | done => simp [passResult, hst, eq_comm]
  | idle => simp [passResult, hst]
  | busy => simp [passResult, hst]
  | error => simp [passResult, hst]

/-! ### DEC -/

/-- AVAIL is the number of bytes present, at most two (R29). -/
theorem avail_toNat (s : State) : (avail s).toNat = min (s.slen - s.cursor) 2 := by
  have hlt : min (s.slen - s.cursor) 2 < 2 ^ 2 := by omega
  rw [avail, BitVec.toNat_ofNat, Nat.mod_eq_of_lt hlt]

/-- decode_one at the cursor is decode_one at offset 0 of the at most two bytes that are there (R29, R89). -/
theorem decodeOne_window {slen c : Nat} (mem : Nat → Byte) :
    decodeOne (min (slen - c) 2) (fun a => if a = 0 then mem c else mem (c + 1)) 0 = decodeOne slen mem c := by
  by_cases hc : slen ≤ c
  · rw [decodeOne_past mem hc, decodeOne_past _ (by omega)]
  · have hlt : c < slen := Nat.not_le.mp hc
    by_cases hm : matchesClass (mem c) = true
    · by_cases h2 : c + 2 ≤ slen
      · exact (decodeOne_pair (c := 0) (by omega) hm).trans (decodeOne_pair h2 hm).symm
      · exact (decodeOne_lone (c := 0) (by omega) (by omega) hm).trans (decodeOne_lone hlt (by omega) hm).symm
    · exact (decodeOne_unmatched (c := 0) (by omega) hm).trans (decodeOne_unmatched hlt hm).symm

/-- DEC's outputs from the answer of decode_one, CLASS, D and W from B0 where a byte is there (R29, decision D20). -/
def decOutOf (b0 : Byte) (here : Bool) (answer : Except Failure (Record × Nat)) : DecOut :=
  match answer with
  | .ok (r, n) =>
    { ok := true, errc := 0, nbytes := BitVec.ofNat 2 n, isClass := here && matchesClass b0,
      d := here && directionFlag b0, w := here && widthFlag b0, mod := r.mod, dst := regCode r.destination,
      src := regCode r.source }
  | .error e =>
    { ok := false, errc := errCode (errOf e), nbytes := 0, isClass := here && matchesClass b0,
      d := here && directionFlag b0, w := here && widthFlag b0, mod := 0, dst := 0, src := 0 }

theorem decAt_eq (s : State) (mem : Nat → Byte) :
    decAt s mem = decOutOf (mem s.cursor) (decide (s.cursor < s.slen)) (decodeOne s.slen mem s.cursor) := by
  have hhere : decide (1 ≤ (avail s).toNat) = decide (s.cursor < s.slen) := by
    rw [decide_eq_decide, avail_toNat]; omega
  rw [decAt, dec, hhere, avail_toNat, decodeOne_window]
  rfl

/-- CLASS, D and W do not depend on what decode_one answers. -/
theorem decOutOf_flags (b0 : Byte) (here : Bool) (answer : Except Failure (Record × Nat)) :
    (decOutOf b0 here answer).isClass = (here && matchesClass b0) ∧
    (decOutOf b0 here answer).d = (here && directionFlag b0) ∧
    (decOutOf b0 here answer).w = (here && widthFlag b0) := by
  cases answer <;> exact ⟨rfl, rfl, rfl⟩

/-- Settles O52: DEC's window shows decode_one the bytes that are there, and its three flags B0 alone. -/
theorem decOutputsFollowDecodeOne : Obligations.DecOutputsFollowDecodeOne := by
  intro s mem _
  obtain ⟨hclass, hd, hw⟩ := decOutOf_flags (mem s.cursor) (decide (s.cursor < s.slen)) (decodeOne s.slen mem s.cursor)
  rw [decAt_eq]
  refine ⟨fun r n h => ?_, fun e h => ?_, fun hlt => ?_, fun hend => ?_⟩
  · rw [h]
    exact ⟨rfl, rfl, rfl, rfl, rfl, rfl⟩
  · rw [h]
    exact ⟨rfl, rfl, rfl, rfl, rfl, rfl⟩
  · rw [hclass, hd, hw, decide_eq_true hlt]
    exact ⟨rfl, rfl, rfl⟩
  · rw [hclass, hd, hw, decide_eq_false hend.not_lt]
    exact ⟨rfl, rfl, rfl⟩

end Sys2Proof.Machine
end
